-- ==== Sys2Proof/Word.lean ====
section
/-! DEFINITION. The widths of DS1307RTC-CORE (spec/00_scope.md rule R7), the record of time fields
(spec/10_state.md rule R21), the names of the ten operations (rule R6) and the two reasons a command word
does not decode (spec/30_encoding.md rule R98). -/
namespace Sys2Proof

/-- FIELD_W, STATUS_W, CAL_W: one byte (R7). -/
abbrev Byte := BitVec 8

/-- CMD_W and RSP_W: a command or a response word (R90, R95). -/
abbrev Word := BitVec 64

/-- The payload `P` of a command and `Q` of a response, bits 55:0 (R90, R95). -/
abbrev Payload := BitVec 56

/-- EPOCH_W: epoch seconds, unsigned (R7). -/
abbrev Epoch := BitVec 32

/-- A 7-bit device address on the two-wire bus (R51). -/
abbrev BusAddr := BitVec 7

/-- The TimeFields record, in the fixed order of R21. -/
structure TimeFields where
  second : Byte
  minute : Byte
  hour   : Byte
  wday   : Byte
  day    : Byte
  month  : Byte
  year   : Byte
  deriving DecidableEq, Repr, Inhabited

/-- The ten operations of R6, as names. `SEQ` holds one of them (R30). -/
inductive Op where
  | get | set | read | write | chippresent | isrunning | setcal | getcal | dec2bcd | bcd2dec
  deriving DecidableEq, Repr

/-- Why a command word is illegal (R98). -/
inductive IllegalWord where
  /-- Bits 59:56 are not 0000. -/
  | reservedNotZero
  /-- Bits 63:60 are 0x0 or 0xB to 0xF. -/
  | noSuchOperation
  deriving DecidableEq, Repr

end Sys2Proof
end

