-- ==== Sys2Proof/Syntax.lean ====
section
/-! DEFINITION. The instruction set: the ten commands of spec/00_scope.md rule R6 with the operands of
spec/30_encoding.md rule R92 (formats N, T, E, B). One constructor per row of spec/opcode_table.json. -/
namespace Sys2Proof

/-- A decoded command (R101). SETCAL's operand is the integer `sext_8(P[7:0])`; the other operands are
bits. -/
inductive Instr where
  | get
  | set (t : Epoch)
  | read
  | write (tf : TimeFields)
  | chippresent
  | isrunning
  | setcal (value : Int)
  | getcal
  | dec2bcd (value : Byte)
  | bcd2dec (bcd : Byte)
  deriving DecidableEq, Repr

/-- The operation a command asks for (R6). -/
def Instr.op : Instr → Op
  | .get => .get
  | .set _ => .set
  | .read => .read
  | .write _ => .write
  | .chippresent => .chippresent
  | .isrunning => .isrunning
  | .setcal _ => .setcal
  | .getcal => .getcal
  | .dec2bcd _ => .dec2bcd
  | .bcd2dec _ => .bcd2dec

end Sys2Proof
end

