-- ==== Sys2Proof/WellFormed.lean ====
section
/-! DEFINITION. Well-formed commands (an operand the encoding can carry), and the declared ranges of the
time fields, which are the requester's duty and no part of well-formedness
(spec/10_state.md rules R21 to R23, spec/70_reset_and_hazards.md rule R184). -/
namespace Sys2Proof

/-- CAL_W: SETCAL's operand is a two's-complement integer of 8 bits (R23, R92). -/
def calOperandFits (value : Int) : Bool := decide (-128 ≤ value) && decide (value ≤ 127)

/-- A command the encoding can carry. Every other operand fits by its type. -/
def Instr.wf : Instr → Bool
  | .get => true
  | .set _ => true
  | .read => true
  | .write _ => true
  | .chippresent => true
  | .isrunning => true
  | .setcal value => calOperandFits value
  | .getcal => true
  | .dec2bcd _ => true
  | .bcd2dec _ => true

/-- The declared ranges of R21; Year has none. -/
def TimeFields.inDeclaredRanges (tf : TimeFields) : Bool :=
  decide (tf.second.toNat ≤ 59) && decide (tf.minute.toNat ≤ 59) && decide (tf.hour.toNat ≤ 23) &&
  decide (1 ≤ tf.wday.toNat ∧ tf.wday.toNat ≤ 7) && decide (1 ≤ tf.day.toNat ∧ tf.day.toNat ≤ 31) &&
  decide (1 ≤ tf.month.toNat ∧ tf.month.toNat ≤ 12)

/-- The source's declared magnitude of a calibration value (R23: "magnitude ≤ 31"). -/
def calInDeclaredRange (value : Int) : Bool := decide (-31 ≤ value) && decide (value ≤ 31)

end Sys2Proof
end

