-- ==== Sys2Proof/Decode.lean ====
section
/-! DEFINITION. The decoder of spec/30_encoding.md rule R101, total on all 2^64 words, and after it the
encoder, which puts 0 in every ignored bit. -/
namespace Sys2Proof

/-- `cmd[63:60]` (R90). -/
def opField (cmd : Word) : BitVec 4 := cmd.extractLsb' 60 4

/-- `cmd[59:56]`, reserved, must be 0000 (R90). -/
def rzField (cmd : Word) : BitVec 4 := cmd.extractLsb' 56 4

/-- `P`, `cmd[55:0]` (R90). -/
def payloadField (cmd : Word) : Payload := cmd.extractLsb' 0 56

/-- Field `i` of the record is byte `i` of the payload (R93). -/
def TimeFields.ofPayload (p : Payload) : TimeFields where
  second := p.extractLsb' 0 8
  minute := p.extractLsb' 8 8
  hour   := p.extractLsb' 16 8
  wday   := p.extractLsb' 24 8
  day    := p.extractLsb' 32 8
  month  := p.extractLsb' 40 8
  year   := p.extractLsb' 48 8

/-- The record laid out in a payload, Year in the most significant byte (R93). -/
def TimeFields.toPayload (tf : TimeFields) : Payload :=
  tf.year ++ tf.month ++ tf.day ++ tf.wday ++ tf.hour ++ tf.minute ++ tf.second

/-- The operation codes 0x1 to 0xA with their operands (R92, R94, R101). -/
def decodeOp (op : BitVec 4) (p : Payload) : Except IllegalWord Instr :=
  match op.toNat with
  | 0x1 => .ok .get
  | 0x2 => .ok (.set (p.extractLsb' 0 32))
  | 0x3 => .ok .read
  | 0x4 => .ok (.write (TimeFields.ofPayload p))
  | 0x5 => .ok .chippresent
  | 0x6 => .ok .isrunning
  | 0x7 => .ok (.setcal (p.extractLsb' 0 8).toInt)
  | 0x8 => .ok .getcal
  | 0x9 => .ok (.dec2bcd (p.extractLsb' 0 8))
  | 0xA => .ok (.bcd2dec (p.extractLsb' 0 8))
  | _   => .error .noSuchOperation

/-- The decoder (R98, R101): the reserved bits first, then the operation code. -/
def decode (cmd : Word) : Except IllegalWord Instr :=
  if rzField cmd = 0 then decodeOp (opField cmd) (payloadField cmd) else .error .reservedNotZero

/-- `decode` on a word that spec/opcode_table.json numbers: one 64-bit word, bit 0 the least significant
(R8, R90); bits at `nbits` and above are 0. -/
def decodeTableWord (nbits w : Nat) : Option Instr :=
  match decode (BitVec.ofNat 64 (w % 2 ^ nbits)) with
  | .ok i => some i
  | .error _ => none

/-- The operation code of R94. -/
def Instr.opcode : Instr → BitVec 4
  | .get => 0x1
  | .set _ => 0x2
  | .read => 0x3
  | .write _ => 0x4
  | .chippresent => 0x5
  | .isrunning => 0x6
  | .setcal _ => 0x7
  | .getcal => 0x8
  | .dec2bcd _ => 0x9
  | .bcd2dec _ => 0xA

/-- The operand payload of R92, 0 in every ignored bit (R101). -/
def Instr.payload : Instr → Payload
  | .get => 0
  | .set t => t.setWidth 56
  | .read => 0
  | .write tf => tf.toPayload
  | .chippresent => 0
  | .isrunning => 0
  | .setcal value => (BitVec.ofInt 8 value).setWidth 56
  | .getcal => 0
  | .dec2bcd value => value.setWidth 56
  | .bcd2dec bcd => bcd.setWidth 56

/-- The command word of an instruction (R90, R94). -/
def encode (i : Instr) : Word := i.opcode ++ (0 : BitVec 4) ++ i.payload

end Sys2Proof
end

