-- ==== Sys2Proof/Config.lean ====
section
/-! DEFINITION. The named parameters of spec/00_scope.md rule R7. A parameter with a value in R7 has that
value here; a parameter R7 leaves OPEN, and every draw the spec leaves free, is an opaque constant with no
body. NREQ is the length of `State.ports`, ARB_POLICY is `State.choices` and then `arbPolicy`, TM2CHIP and
CHIP2TM are chosen by `State.years`. -/
namespace Sys2Proof.Config

/-- DEV_ADDR (R7, R50). -/
def devAddr : BusAddr := 0x68
/-- REG_TIME_BASE (R7). -/
def regTimeBase : Byte := 0x00
/-- N_TIME_REGS (R7). -/
def nTimeRegs : Byte := 7
/-- REG_CAL (R7). -/
def regCal : Byte := 0x07
/-- The registers of the chip are 0x00 to 0x07 (R58, R76). -/
def nChipRegs : Nat := 8
/-- HALT_MASK (R7). -/
def haltMask : Byte := 0x80
/-- SEC_MASK (R7). -/
def secMask : Byte := 0x7F
/-- HOUR_MASK (R7; spec/90_conflicts.md C5: bit 6 only). -/
def hourMask : Byte := 0xBF
/-- STOP_BYTE (R7). -/
def stopByte : Byte := 0x80
/-- CAL_MAG_MASK (R7). -/
def calMagMask : Byte := 0x1F
/-- CAL_SIGN_MASK (R7). -/
def calSignMask : Byte := 0x20
/-- PRESENCE_RESET (R7, R37). -/
def presenceReset : Bool := false
/-- BUS_QUEUE_MIN (R7, R52). -/
def busQueueMin : Nat := 8
/-- The offset of the default year mapping (R7: `(y - 30) mod 256` and `(c + 30) mod 256`). -/
def yearOffset : Byte := 30
/-- NREQ in the reset state: the source's single-threaded case (R7, R174). DESIGN CHOICE, log 2. -/
def nreqReset : Nat := 1
/-- The most events an operation has after acceptance (R32). -/
def maxEvents : Nat := 15
/-- The status of a failing close in the fault variants of the reference environment (R79). -/
def failStatus : Byte := 2
/-- What a chip register nothing has written reads as. DESIGN CHOICE, log 4. -/
def unlistedRegister : Byte := 0x00

/-- MAKE_TIME, OPEN (R7, R152). -/
opaque makeTime : TimeFields → Epoch
/-- BREAK_TIME, OPEN (R7, R152). -/
opaque breakTime : Epoch → TimeFields
/-- TM2CHIP of a platform that does not use the default (R7, R152). -/
opaque tm2chipSupplied : Byte → Byte
/-- CHIP2TM of a platform that does not use the default (R7, R152). -/
opaque chip2tmSupplied : Byte → Byte
/-- `any_56`, a fresh draw for each value of the counter (R10, R96). -/
opaque any56 : Nat → Payload
/-- `any_8`, a fresh draw for each value of the counter (R10, R55). -/
opaque any8 : Nat → Byte
/-- Whether the unspecified collaborator completes its next primitive (R34, R50). -/
opaque busReturns : Nat → Bool
/-- What the unspecified collaborator returns (R50: chosen by the environment). -/
opaque busData : Nat → Byte
/-- ARB_POLICY where `State.choices` does not decide (R7, R72): none where nobody is picked in that event, else
the place of the picked one among those that wait. -/
opaque arbPolicy : Nat → Option Nat

end Sys2Proof.Config
end

