-- ==== Sys2Proof/Machine/State.lean ====
section
/-! DEFINITION. Everything the spec gives the machine: the block's state (spec/10_state.md rule R20), its
ports (R35), and the environment it works in, that is the collaborator's hidden state and the chip
(spec/20_memory.md rules R57, R58, R76), together with the inputs the spec leaves to the other agents
(R11, R31, R72), all as plain data. -/
namespace Sys2Proof.Machine

/-- Why the machine stops. -/
inductive Fault where
  /-- Raised by `step` alone: a bus primitive is outstanding and the collaborator never completes it
  (R34, spec/93_implementation_defined.md U13: `stuck`), and no other agent has a move left. Safe: the
  block has no step there. -/
  | busNeverReturns
  /-- Raised by `step` alone: `SEQ` names a step that is no step of the command in `CMD`. No run reaches
  such a state (the invariant of Safety.lean rules it out). Safe. -/
  | strayStep
  deriving DecidableEq, Repr

/-- Why an instruction has no meaning. No arm of `exec` answers it: all ten have their meaning. -/
inductive Refusal where
  /-- Raised by an arm of `exec` whose instruction is not modelled yet. Safe. -/
  | notModelled (mnemonic : String)
  deriving DecidableEq, Repr

/-- `SEQ`: IDLE or a pair (operation, step number) (R30). -/
inductive Seq where
  | idle
  | busy (op : Op) (step : Nat)
  deriving DecidableEq, Repr

/-- The error kinds of R97 and R160. -/
inductive ErrorKind where
  | busUnavailable | shortRead | clockHalted | illegalCommand
  deriving DecidableEq, Repr

/-- The arguments of `done` (R33): the error kind, none when `ok = 1` (R95), and the payload, none for
`any_56` (R96). -/
structure Completion where
  err : Option ErrorKind
  q   : Option Payload
  deriving DecidableEq, Repr

/-- `B0` to `B6`, the raw bytes of a read burst (R20). Also the seven time registers as a record. -/
structure RawBytes where
  b0 : Byte
  b1 : Byte
  b2 : Byte
  b3 : Byte
  b4 : Byte
  b5 : Byte
  b6 : Byte
  deriving DecidableEq, Repr, Inhabited

/-- The latches of the command in flight (R20, rows `CMD` to `CNT`). `due` is a completion that a
primitive's result has decided and that is the block's next event (R31 point 3). -/
structure Latches where
  cmd : Word
  tf  : TimeFields
  cal : Byte
  raw : RawBytes
  st  : Byte
  cnt : Byte
  due : Option Completion
  deriving DecidableEq, Repr

/-- The latches while no command is in flight. R37 leaves them unspecified; the model's value is 0.
DESIGN CHOICE, log 1. -/
def Latches.reset : Latches where
  cmd := 0
  tf  := ⟨0, 0, 0, 0, 0, 0, 0⟩
  cal := 0
  raw := ⟨0, 0, 0, 0, 0, 0, 0⟩
  st  := 0
  cnt := 0
  due := none

/-- The command port and the response port of one requester (R35): `cmd` is some word while `cmd_valid`
is 1, `rsp` is some word while `rsp_valid` is 1. -/
structure Port where
  cmd : Option Word
  rsp : Option Word
  deriving DecidableEq, Repr

/-- The five primitives of the bus master port (R35, R50 to R55). -/
inductive BusCall where
  | busOpen (addr : BusAddr)
  | busWrite (data : Byte)
  | busClose
  | busRequest (addr : BusAddr) (count : Byte)
  | busRead
  deriving DecidableEq, Repr

/-- One primitive event: the call and its result; none for the two that have no result (R51, R52). -/
structure BusEvent where
  call : BusCall
  ret  : Option Byte
  deriving DecidableEq, Repr

/-- Chip registers as (register number, byte), numbers rising, no byte equal to what an unlisted register
reads as. -/
abbrev Memory := List Host.Cell

/-- The chip: its byte registers 0x00 to 0x07 and its register pointer (R57 to R59, R76). -/
structure Chip where
  mem : Memory
  ptr : Nat
  deriving DecidableEq, Repr

/-- How the collaborator answers. -/
inductive EnvKind where
  /-- R50: the result of each primitive is chosen by the environment. `returns` lists what the bus master
  port's `bus_ret` lines will carry, one entry a primitive, none for a primitive that never completes
  (R34); past the end of the list every result is a free draw. -/
  | unspecified (returns : List (Option Byte))
  /-- ENV-H (R75 to R78). -/
  | healthy
  /-- ENV-ABSENT (R79). -/
  | absent
  /-- ENV-SHORT(n) (R79). -/
  | short (n : Nat)
  /-- ENV-FAIL2 (R79); `closes` counts the closes since it was armed. -/
  | fail2 (closes : Nat)
  deriving DecidableEq, Repr

/-- The environment: the chip and the collaborator's write queue and read buffer (R57, R76). -/
structure Env where
  kind   : EnvKind
  chip   : Chip
  queue  : List Byte
  buffer : List Byte
  deriving DecidableEq, Repr

/-- What another agent may do between two events of the block (R31). -/
inductive Move where
  /-- Requester `r` presents a command word (R70). -/
  | present (r : Nat) (w : Word)
  /-- The chip advances its time registers (R80). -/
  | tick (time : RawBytes)
  /-- Another user of the physical bus moves the chip's register pointer (R73, R187). -/
  | foreignPointer (p : Nat)
  /-- Another user of the physical bus writes a chip register (R73, R187). -/
  | foreignWrite (a : Nat) (v : Byte)
  /-- The platform initialises the bus collaborator (R181, R183). -/
  | busInit (kind : EnvKind)
  /-- `rst` is asserted (R180, R181). -/
  | rst
  deriving DecidableEq, Repr

/-- TM2CHIP and CHIP2TM (R7): the default form with its offset, or the platform's own functions. -/
inductive YearMap where
  | offset (k : Byte)
  | supplied
  deriving DecidableEq, Repr

/-- The whole machine. -/
structure State where
  /-- `PRESENCE` (R24). -/
  presence : Bool
  /-- `SEQ` (R30). -/
  seq      : Seq
  /-- `GRANT`, none in IDLE (R20, R37). -/
  grant    : Option Nat
  /-- `CMD`, `TF`, `CAL`, `B0..B6`, `ST`, `CNT` (R20). -/
  latch    : Latches
  /-- The command and response ports, one per requester; the length is NREQ (R7, R35). -/
  ports    : List Port
  /-- The primitive outstanding on the bus master port, none when `bus_call_valid = 0` (R35, R37). -/
  bus      : Option BusCall
  /-- The primitives of the latest command, oldest first (R135: "must record the fourteen primitives"). -/
  trace    : List BusEvent
  /-- The collaborator and the chip (R57, R76). -/
  env      : Env
  /-- The moves of the other agents: the head of the list is made before the block's next event (R31). -/
  agenda   : List (List Move)
  /-- The arbiter's coming choices (ARB_POLICY, R72), one for each event in which somebody waits: a requester
  number, or none where it picks nobody in that event. Past the end of the list it is a free draw. -/
  choices  : List (Option Nat)
  /-- How many free draws have been taken. -/
  draws    : Nat
  /-- The year mapping the platform supplies (R7, R152). -/
  years    : YearMap
  deriving DecidableEq, Repr

/-- The machine right after reset (R37, R180): the flag 0, IDLE, no grant, nothing pending. What R37 gives
no value for is in log 1 to 6. -/
def State.reset : State where
  presence := Config.presenceReset
  seq      := .idle
  grant    := none
  latch    := Latches.reset
  ports    := List.replicate Config.nreqReset ⟨none, none⟩
  bus      := none
  trace    := []
  env      := { kind := .unspecified [], chip := { mem := [], ptr := 0 }, queue := [], buffer := [] }
  agenda   := []
  choices  := []
  draws    := 0
  years    := .offset Config.yearOffset

/-- What one event of the block comes to (R31, R34). -/
inductive Progress where
  /-- The event happened. -/
  | moved (s : State)
  /-- The primitive was called and has not returned. -/
  | waiting (s : State)
  /-- `SEQ` names no step of the operation. -/
  | stray
  deriving DecidableEq, Repr

end Sys2Proof.Machine
end

