-- ==== Sys2Proof/Machine/Operands.lean ====
section
/-! DEFINITION. The codec (spec/40_bcd_codec.md) and everything the operations derive from their operands
or from the bytes they receive: EncodeTime, DecodeTime, the halt test (spec/41_transport_time.md) and the
calibration byte (spec/42_transport_status_cal.md). -/
namespace Sys2Proof.Machine

/-- R120: `trunc_8((value div 10) * 16 + (value mod 10))`. -/
def dec2bcd (value : Byte) : Byte := BitVec.ofNat 8 (value.toNat / 10 * 16 + value.toNat % 10)

/-- R121: `(bcd div 16) * 10 + (bcd mod 16)`, which always fits 8 bits. -/
def bcd2dec (bcd : Byte) : Byte := BitVec.ofNat 8 (bcd.toNat / 16 * 10 + bcd.toNat % 16)

/-- The codec encode port: `bcd_o` at all times (R35, R122). -/
def encodePort (decIn : Byte) : Byte := dec2bcd decIn

/-- The codec decode port: `dec_o` at all times (R35, R122). -/
def decodePort (bcdIn : Byte) : Byte := bcd2dec bcdIn

/-- TM2CHIP: full year to chip year (R7, R152). -/
def YearMap.toChip : YearMap → Byte → Byte
  | .offset k, y => y - k
  | .supplied, y => Config.tm2chipSupplied y

/-- CHIP2TM: chip year to full year (R7, R152). -/
def YearMap.ofChip : YearMap → Byte → Byte
  | .offset k, c => c + k
  | .supplied, c => Config.chip2tmSupplied c

/-- EncodeTime (R133): the bytes `E0` to `E6`. -/
def encodeTime (years : YearMap) (tf : TimeFields) : RawBytes where
  b0 := dec2bcd tf.second
  b1 := dec2bcd tf.minute
  b2 := dec2bcd tf.hour
  b3 := dec2bcd tf.wday
  b4 := dec2bcd tf.day
  b5 := dec2bcd tf.month
  b6 := dec2bcd (years.toChip tf.year)

/-- DecodeTime (R132): bit 7 of the seconds byte and bit 6 of the hours byte are masked off. -/
def decodeTime (years : YearMap) (b : RawBytes) : TimeFields where
  second := bcd2dec (b.b0 &&& Config.secMask)
  minute := bcd2dec b.b1
  hour   := bcd2dec (b.b2 &&& Config.hourMask)
  wday   := bcd2dec b.b3
  day    := bcd2dec b.b4
  month  := bcd2dec b.b5
  year   := years.ofChip (bcd2dec b.b6)

/-- The halt flag of a raw seconds byte: set means stopped (R60). -/
def haltFlag (b : Byte) : Bool := decide (b &&& Config.haltMask ≠ 0)

/-- The latch `CAL` from SETCAL's operand (R20, R142). -/
def calLatch (value : Int) : Byte := BitVec.ofInt 8 value

/-- The byte SETCAL writes (R142): the absolute value is taken in the integers and masked to five bits,
and the sign bit is set for a value that is not negative. -/
def calEncode (cal : Byte) : Byte :=
  (BitVec.ofNat 8 cal.toInt.natAbs &&& Config.calMagMask) |||
    (if 0 ≤ cal.toInt then Config.calSignMask else 0)

/-- The value GETCAL reads from a calibration byte (R143): an integer from -31 to 31. -/
def calDecode (b : Byte) : Int :=
  let mag : Int := (b &&& Config.calMagMask).toNat
  if b &&& Config.calSignMask ≠ 0 then mag else -mag

/-- `B0` to `B6` by number (R130, steps READ.5 to READ.11). -/
def RawBytes.setByte (b : RawBytes) (k : Nat) (v : Byte) : RawBytes :=
  match k with
  | 0 => { b with b0 := v }
  | 1 => { b with b1 := v }
  | 2 => { b with b2 := v }
  | 3 => { b with b3 := v }
  | 4 => { b with b4 := v }
  | 5 => { b with b5 := v }
  | 6 => { b with b6 := v }
  | _ => b

end Sys2Proof.Machine
end

