-- ==== Sys2Proof/Machine/Flags.lean ====
section
/-! DEFINITION. The result flags `ok` and `err` and the response word that carries them
(spec/30_encoding.md rules R95 to R97, spec/10_state.md rule R26), the result payloads of R96, and the
signal values of the bus master port (R35). -/
namespace Sys2Proof.Machine

/-- The error kind values of R97; 0 is none. -/
def errCode : Option ErrorKind → BitVec 3
  | none => 0
  | some .busUnavailable => 1
  | some .shortRead => 2
  | some .clockHalted => 3
  | some .illegalCommand => 4

/-- `ok` is 1 exactly when there is no error (R95). -/
def okFlag (err : Option ErrorKind) : BitVec 1 := if err = none then 1 else 0

/-- The response word (R95): `op` echoed from the command, `ok`, `err`, `Q`. -/
def responseWord (op : BitVec 4) (err : Option ErrorKind) (q : Payload) : Word :=
  op ++ okFlag err ++ errCode err ++ q

/-- `Q[7:0]` holds a byte, `Q[55:8]` is 0 (R96). -/
def byteResult (b : Byte) : Payload := b.setWidth 56

/-- `Q[0]` holds a truth value, the other bits are 0 (R96). -/
def boolResult (b : Bool) : Payload := if b then 1 else 0

/-- `Q[31:0]` holds epoch seconds, `Q[55:32]` is 0 (R96). -/
def epochResult (t : Epoch) : Payload := t.setWidth 56

/-- Success with a payload. -/
def answerOk (q : Payload) : Completion := ⟨none, some q⟩

/-- `raise Kind` (R160): a failure with what the operation's rule says `Q` is, none for `any_56`. -/
def answerFail (kind : ErrorKind) (q : Option Payload) : Completion := ⟨some kind, q⟩

/-- READ's last step (R130, READ.12): the raw seconds byte decides, the record is the payload either way. -/
def readCompletion (b0 : Byte) (tf : TimeFields) : Completion :=
  if haltFlag b0 then answerFail .clockHalted (some tf.toPayload) else answerOk tf.toPayload

/-- GET's last step (R150, GET.12): 0 when the clock is halted, else MAKE_TIME of the record. -/
def getCompletion (b0 : Byte) (tf : TimeFields) : Completion :=
  if haltFlag b0 then answerFail .clockHalted (some 0) else answerOk (epochResult (Config.makeTime tf))

/-- Whether the primitive has a result (R50: `BusOpen` and `BusWrite` have none). -/
def BusCall.hasResult : BusCall → Bool
  | .busOpen _ => false
  | .busWrite _ => false
  | .busClose => true
  | .busRequest _ _ => true
  | .busRead => true

/-- `bus_call_kind[2:0]` (R35). -/
def BusCall.kindLines : BusCall → BitVec 3
  | .busOpen _ => 0
  | .busWrite _ => 1
  | .busClose => 2
  | .busRequest _ _ => 3
  | .busRead => 4

/-- `bus_call_addr[6:0]`, where the primitive carries an address (R35). -/
def BusCall.addrLines : BusCall → Option BusAddr
  | .busOpen a => some a
  | .busWrite _ => none
  | .busClose => none
  | .busRequest a _ => some a
  | .busRead => none

/-- `bus_call_data[7:0]`, where the primitive carries data (R35). -/
def BusCall.dataLines : BusCall → Option Byte
  | .busOpen _ => none
  | .busWrite b => some b
  | .busClose => none
  | .busRequest _ k => some k
  | .busRead => none

end Sys2Proof.Machine
end

