-- ==== Sys2Proof/Machine/Ops.lean ====
section
/-! DEFINITION. The named operations over the chip's registers, the block's latches and the ports, and the
two endings every operation shares: raising an error (spec/60_exceptions.md rule R160) and completion
(spec/10_state.md rule R33), after which the block is back in IDLE (R168, R170). -/
namespace Sys2Proof.Machine

/-! ## Chip registers (R58, R64: byte accesses, no alignment) -/

/-- One register; an unlisted one reads as `Config.unlistedRegister`. -/
def Memory.read : Memory → Nat → Byte
  | [], _ => Config.unlistedRegister
  | (b, v) :: m, a => if b = a then v else Memory.read m a

/-- Write one register, keeping the numbers rising and listing no byte an unlisted register reads as. -/
def Memory.write : Memory → Nat → Byte → Memory
  | [], a, v => if v = Config.unlistedRegister then [] else [(a, v)]
  | (b, w) :: m, a, v =>
    if a < b then (if v = Config.unlistedRegister then (b, w) :: m else (a, v) :: (b, w) :: m)
    else if a = b then (if v = Config.unlistedRegister then m else (a, v) :: m)
    else (b, w) :: Memory.write m a v

/-- Register numbers at least `lo`, rising and below `Config.nChipRegs`, no unlisted value. -/
def Memory.wfFrom : Nat → Memory → Bool
  | _, [] => true
  | lo, (a, v) :: m =>
    decide (lo ≤ a) && decide (a < Config.nChipRegs) && decide (v ≠ Config.unlistedRegister) &&
      Memory.wfFrom (a + 1) m

/-- The canonical form. -/
def Memory.wf (m : Memory) : Bool := Memory.wfFrom 0 m

/-- A write that reaches the chip: there is nothing above register 0x07 (R62, R77). -/
def Memory.store (m : Memory) (a : Nat) (v : Byte) : Memory :=
  if a < Config.nChipRegs then m.write a v else m

/-- Successive registers from `a` (R68: `pointer + j - 1`; R76 `MemWrite`). -/
def Memory.storeAll : Memory → Nat → List Byte → Memory
  | m, _, [] => m
  | m, a, v :: vs => Memory.storeAll (m.store a v) (a + 1) vs

/-- `k` successive registers from `a` (R68: `pointer + j`; R76 `MemRead`). Above register 0x07 nothing is
defined and the byte is a free draw (R62, U12). -/
def Memory.burst (m : Memory) (a : Nat) (draws : Nat) : Nat → List Byte
  | 0 => []
  | k + 1 =>
    (if a < Config.nChipRegs then m.read a else Config.any8 draws) ::
      Memory.burst m (a + 1) (draws + 1) k

/-- The seven time registers replaced at once (R80). -/
def Memory.storeTime (m : Memory) (t : RawBytes) : Memory :=
  m.storeAll Config.regTimeBase.toNat [t.b0, t.b1, t.b2, t.b3, t.b4, t.b5, t.b6]

/-! ## Latches and the sequencer -/

/-- `PRESENCE <- b` (R25). -/
def State.setPresence (s : State) (b : Bool) : State := { s with presence := b }

/-- Write of the latches. -/
def State.setLatch (s : State) (l : Latches) : State := { s with latch := l }

/-- `SEQ <- q`. -/
def State.setSeq (s : State) (q : Seq) : State := { s with seq := q }

/-- `ST <- v` (R20). -/
def State.setSt (s : State) (v : Byte) : State := s.setLatch { s.latch with st := v }

/-- `CNT <- v` (R20). -/
def State.setCnt (s : State) (v : Byte) : State := s.setLatch { s.latch with cnt := v }

/-- `B<k> <- v` (R20). -/
def State.setByte (s : State) (k : Nat) (v : Byte) : State :=
  s.setLatch { s.latch with raw := s.latch.raw.setByte k v }

/-- `TF <- tf` (R20). -/
def State.setTf (s : State) (tf : TimeFields) : State := s.setLatch { s.latch with tf := tf }

/-- `CAL <- v` (R20). -/
def State.setCal (s : State) (v : Byte) : State := s.setLatch { s.latch with cal := v }

/-- The step after this one, of the same operation. -/
def Seq.next : Seq → Seq
  | .idle => .idle
  | .busy op k => .busy op (k + 1)

/-- R32: `SEQ` goes to the next step of the same operation. -/
def State.advance (s : State) : State := s.setSeq s.seq.next

/-- The completion is the block's next event (R31 point 3); `SEQ` stays at the step that decided it. -/
def State.conclude (s : State) (c : Completion) : State := s.setLatch { s.latch with due := some c }

/-- `raise Kind` (R160): the operation will finish with `ok = 0` and this kind. -/
def State.raise (s : State) (kind : ErrorKind) (q : Option Payload) : State :=
  s.conclude (answerFail kind q)

/-- The first step of an operation, with no completion due (R70). -/
def State.start (s : State) (op : Op) : State :=
  { s with seq := .busy op 1, latch := { s.latch with due := none } }

/-! ## Ports, completion, reset -/

/-- A response word on the response port of one requester, and of no other (R33, R168). -/
def deliver (grant : Option Nat) (w : Word) (ports : List Port) : List Port :=
  match grant with
  | none => ports
  | some r => ports.modify r fun p => { p with rsp := some w }

/-- The payload of a completion: `any_56` is the next free draw (R10, R96). -/
def Completion.payload (c : Completion) (draws : Nat) : Payload := c.q.getD (Config.any56 draws)

/-- How many draws a completion takes: one for `any_56`. -/
def Completion.drawn (c : Completion) : Nat :=
  match c.q with
  | none => 1
  | some _ => 0

/-- `done(ok, err, Q)` (R33), one event: the response to the requester `GRANT`, the grant released,
`SEQ <- IDLE`, and nothing of the command left in the latches. -/
def State.done (s : State) (c : Completion) : State :=
  { s with
    seq := .idle
    grant := none
    latch := Latches.reset
    bus := none
    draws := s.draws + c.drawn
    ports := deliver s.grant (responseWord (opField s.latch.cmd) c.err (c.payload s.draws)) s.ports }

/-- A requester takes its response in the event it is presented (R35). -/
def State.takeResponses (s : State) : State :=
  { s with ports := s.ports.map fun p => { p with rsp := none } }

/-- Acceptance (R70): the grant, the latched command word, the command port free again. The trace starts
anew with each command. -/
def State.accept (s : State) (r : Nat) (w : Word) : State :=
  { s with
    grant := some r
    latch := { Latches.reset with cmd := w }
    ports := s.ports.modify r fun p => { p with cmd := none }
    trace := []
    choices := s.choices.tail
    draws := s.draws + 1 }

/-- What the environment is after a reset: untouched in IDLE (R37, R182); with a command in flight the spec
gives no guarantee of the collaborator, so that every later answer is a free draw (R181, U9). -/
def Env.afterReset (e : Env) : Seq → Env
  | .idle => e
  | .busy _ _ => { e with kind := .unspecified [] }

/-- The reset event (R37, R180, R181): no primitive is issued, a command in flight is abandoned without a
response, the chip is not reset. -/
def State.rst (s : State) : State :=
  { s with
    presence := Config.presenceReset
    seq := .idle
    grant := none
    latch := Latches.reset
    ports := s.ports.map fun p => { p with rsp := none }
    bus := none
    env := s.env.afterReset s.seq
    draws := s.draws + (if s.seq = .idle then 0 else 1) }

/-- The answer to an illegal word (R98, R164): `ok = 0`, `err = 4`, `Q = 0`, the operation code echoed. -/
def State.answerIllegal (s : State) : State := s.done (answerFail .illegalCommand (some 0))

end Sys2Proof.Machine
end

