-- ==== Sys2Proof/Machine/Environment.lean ====
section
/-! DEFINITION. The other agents: the bus collaborator with the chip behind it (spec/20_memory.md rules R50
to R57 and the reference environment R75 to R81), and the moves that chip, requesters, other bus users and
the platform make between two events of the block (R31, R70, R73, R80, R180 to R183). -/
namespace Sys2Proof.Machine

/-- The return of one primitive: the data of `bus_ret_data` (0, and unused, where the primitive has no
result) and the environment after it. -/
structure Answer where
  ret   : Byte
  env   : Env
  draws : Nat
  deriving DecidableEq, Repr

/-- The write transaction reaches the chip at the close (R77): the first byte is the pointer, the following
ones go to successive registers. -/
def Chip.apply (c : Chip) : List Byte → Chip
  | [] => c
  | p :: ds => { mem := c.mem.storeAll p.toNat ds, ptr := p.toNat + ds.length }

/-- `BusClose` under ENV-H (R77). -/
def Env.closeOk (e : Env) : Env := { e with chip := e.chip.apply e.queue, queue := [] }

/-- `BusRequest(a, k)` that buffers `n` bytes (R78, R79). -/
def Env.fill (e : Env) (draws k n : Nat) : Env :=
  { e with buffer := e.chip.mem.burst e.chip.ptr draws n, chip := { e.chip with ptr := e.chip.ptr + k } }

/-- `BusRead` (R78): the head of the buffer, or `any_8` when it is empty. -/
def Env.take (e : Env) (draws : Nat) : Answer :=
  match e.buffer with
  | [] => ⟨Config.any8 draws, e, draws + 1⟩
  | b :: bs => ⟨b, { e with buffer := bs }, draws⟩

/-- The reference environment and its variants, which answer every primitive (R77 to R79). -/
def Env.reference (e : Env) (c : BusCall) (draws : Nat) : Answer :=
  match c with
  | .busOpen _ => ⟨0, { e with queue := [] }, draws⟩
  | .busWrite b => ⟨0, { e with queue := e.queue ++ [b] }, draws⟩
  | .busClose =>
    match e.kind with
    | .absent => ⟨Config.failStatus, e, draws⟩
    | .fail2 closes =>
      if closes = 1 then ⟨Config.failStatus, { e with kind := .fail2 2, queue := [] }, draws⟩
      else ⟨0, { e.closeOk with kind := .fail2 (closes + 1) }, draws⟩
    | _ => ⟨0, e.closeOk, draws⟩
  | .busRequest _ k =>
    match e.kind with
    | .absent => ⟨0, { e with buffer := [] }, draws⟩
    | .short n =>
      let got := min n k.toNat
      ⟨BitVec.ofNat 8 got, e.fill draws k.toNat got, draws + got⟩
    | _ => ⟨k, e.fill draws k.toNat k.toNat, draws + k.toNat⟩
  | .busRead => e.take draws

/-- What the collaborator answers to one primitive; none when it never completes it (R34, R50). -/
def Env.answer (e : Env) (c : BusCall) (draws : Nat) : Option Answer :=
  match e.kind with
  | .unspecified (none :: _) => none
  | .unspecified (some b :: rest) => some ⟨b, { e with kind := .unspecified rest }, draws⟩
  | .unspecified [] =>
    if Config.busReturns draws then some ⟨Config.busData draws, e, draws + 1⟩ else none
  | _ => some (e.reference c draws)

/-- A list of primitives in order: the results of those that have one, and the environment after the last;
none when one of them never completes. -/
def Env.converse : Env → Nat → List BusCall → Option (List Byte × Env × Nat)
  | e, draws, [] => some ([], e, draws)
  | e, draws, c :: cs =>
    match e.answer c draws with
    | none => none
    | some a =>
      match Env.converse a.env a.draws cs with
      | none => none
      | some (rets, e', draws') =>
        some (if c.hasResult then a.ret :: rets else rets, e', draws')

/-- The event a returned primitive leaves in the trace. -/
def busEvent (c : BusCall) (ret : Byte) : BusEvent := ⟨c, if c.hasResult then some ret else none⟩

/-! ## Moves of the other agents -/

/-- R70, R191: a requester presents a word on a free command port, and none while its own command is in
flight. Any other attempt is no move. -/
def State.present (s : State) (r : Nat) (w : Word) : State :=
  if s.grant = some r then s
  else { s with ports := s.ports.modify r fun p => { p with cmd := some (p.cmd.getD w) } }

/-- R80: while the halt flag is clear the chip may replace its time registers, leaving the flag clear.
R81: while it is set the chip has no step. -/
def Chip.tick (c : Chip) (t : RawBytes) : Chip :=
  if haltFlag (c.mem.read Config.regTimeBase.toNat) then c
  else { c with mem := c.mem.storeTime { t with b0 := t.b0 &&& Config.secMask } }

/-- R181, R183: the platform initialises the collaborator, before a command and not within one. -/
def State.busInit (s : State) (kind : EnvKind) : State :=
  match s.seq with
  | .idle => { s with env := { s.env with kind := kind, queue := [], buffer := [] } }
  | .busy _ _ => s

/-- One move of another agent. -/
def State.otherMove (s : State) : Move → State
  | .present r w => s.present r w
  | .tick t => { s with env := { s.env with chip := s.env.chip.tick t } }
  | .foreignPointer p => { s with env := { s.env with chip := { s.env.chip with ptr := p } } }
  | .foreignWrite a v =>
    { s with env := { s.env with chip := { s.env.chip with mem := s.env.chip.mem.store a v } } }
  | .busInit kind => s.busInit kind
  | .rst => s.rst

/-- The moves made before the block's next event: the head of the agenda (R31). -/
def State.otherAgents (s : State) : State :=
  match s.agenda with
  | [] => s
  | ms :: rest => ms.foldl State.otherMove { s with agenda := rest }

end Sys2Proof.Machine
end

