-- ==== Sys2Proof/Machine/Sequencer.lean ====
section
/-! DEFINITION. The sequencer (spec/10_state.md rules R30 to R34) and the arbiter (spec/20_memory.md rules
R70 to R72). One event of the block is `State.event`; an operation runs event by event, the other agents
moving before each. -/
namespace Sys2Proof.Machine

/-- The state after a primitive has returned, before the assignments attached to it (R31). -/
def State.returned (s : State) (c : BusCall) (a : Answer) : State :=
  { s with env := a.env, draws := a.draws, bus := none, trace := s.trace ++ [busEvent c a.ret] }

/-- One bus primitive, call and return together one event, with the assignments the rules attach to it
(R31). A primitive that does not return leaves its call on the bus master port (R34). -/
def State.callBus (s : State) (c : BusCall) (after : Byte → State → State) : Progress :=
  match s.env.answer c s.draws with
  | none => .waiting { s with bus := some c }
  | some a => .moved (after a.ret (s.returned c a))

/-- A primitive whose result is not looked at. -/
def State.callOnly (s : State) (c : BusCall) : Progress := s.callBus c fun _ t => t.advance

/-- The block's next event (R31): a completion that is due, else the step `SEQ` names of the operation
whose step list is `steps`. -/
def State.event (steps : Nat → State → Progress) (s : State) : Progress :=
  match s.latch.due with
  | some c => .moved (s.done c)
  | none =>
    match s.seq with
    | .idle => .stray
    | .busy _ k => steps k s

/-- The operation in flight, at most `fuel` events of it (R32): before each event the other agents move;
a reset among their moves ends it (R181), and so does a primitive that does not return (R34). -/
def State.run (steps : Nat → State → Progress) : Nat → State → State
  | 0, s => s
  | fuel + 1, s =>
    match s.otherAgents.seq with
    | .idle => s.otherAgents
    | .busy _ _ =>
      match State.event steps s.otherAgents with
      | .waiting t => t
      | .stray => s.otherAgents
      | .moved t => if t.seq = .idle then t else State.run steps fuel t

/-- The command ports that hold a word, with their requester numbers, lowest first (R70). -/
def waitingFrom : Nat → List Port → List (Nat × Word)
  | _, [] => []
  | r, p :: ps =>
    match p.cmd with
    | none => waitingFrom (r + 1) ps
    | some w => (r, w) :: waitingFrom (r + 1) ps

/-- ARB_POLICY's choice among the requesters that wait, `x` and `xs` (R72, U10): a free draw, and nobody is one
of the draws. -/
def State.policyPick (s : State) (x : Nat × Word) (xs : List (Nat × Word)) : Option (Nat × Word) :=
  (Config.arbPolicy s.draws).map fun n => (x :: xs).getD (n % (xs.length + 1)) x

/-- Which waiting requester is picked (R70, R72): nobody where the next of `choices` says so, the one it names
where that one waits, else ARB_POLICY's choice. -/
def State.arbitrate (s : State) : Option (Nat × Word) :=
  match waitingFrom 0 s.ports, s.choices with
  | [], _ => none
  | _ :: _, none :: _ => none
  | x :: xs, some r :: _ =>
    match (x :: xs).find? fun y => y.1 == r with
    | some y => some y
    | none => s.policyPick x xs
  | x :: xs, [] => s.policyPick x xs

/-- An event in which the arbiter picks nobody: where somebody waited, the choice and the draw that said so are
used up. -/
def State.pass (s : State) : State :=
  match waitingFrom 0 s.ports with
  | [] => s
  | _ :: _ => { s with choices := s.choices.tail, draws := s.draws + 1 }

/-- `cmd_ready[r]` (R35): the arbiter takes the word of requester `r` in this event. -/
def State.cmdReady (s : State) (r : Nat) : Bool :=
  decide (s.seq = .idle) && (s.arbitrate.map (·.1) == some r)

end Sys2Proof.Machine
end

