-- ==== Sys2Proof/Machine/Codec.lean ====
section
/-! DEFINITION. DEC2BCD and BCD2DEC as commands (spec/40_bcd_codec.md rules R120, R121, R127): no bus
primitive, no state, complete in the event after acceptance. -/
namespace Sys2Proof.Machine

/-- The step list of DEC2BCD (R120, R127). -/
def dec2bcdSteps (value : Byte) : Nat → State → Progress
  | 1, s => .moved (s.done (answerOk (byteResult (dec2bcd value))))
  | _, _ => .stray

/-- DEC2BCD (R120). -/
def execDec2bcd (value : Byte) (s : State) : Host.Outcome State Fault Refusal :=
  .next (State.run (dec2bcdSteps value) Config.maxEvents (s.start .dec2bcd))

/-- The step list of BCD2DEC (R121, R127). -/
def bcd2decSteps (bcd : Byte) : Nat → State → Progress
  | 1, s => .moved (s.done (answerOk (byteResult (bcd2dec bcd))))
  | _, _ => .stray

/-- BCD2DEC (R121). -/
def execBcd2dec (bcd : Byte) (s : State) : Host.Outcome State Fault Refusal :=
  .next (State.run (bcd2decSteps bcd) Config.maxEvents (s.start .bcd2dec))

end Sys2Proof.Machine
end

