-- ==== Sys2Proof/Machine/Status.lean ====
section
/-! DEFINITION. CHIPPRESENT, ISRUNNING, SETCAL and GETCAL (spec/42_transport_status_cal.md rules R140 to
R143). None of them writes `PRESENCE` (R25). -/
namespace Sys2Proof.Machine

/-- The step list of CHIPPRESENT (R140). -/
def chippresentSteps : Nat → State → Progress
  | 1, s => .moved (s.done (answerOk (boolResult s.presence)))
  | _, _ => .stray

/-- CHIPPRESENT (R140). -/
def execChippresent (s : State) : Host.Outcome State Fault Refusal :=
  .next (State.run chippresentSteps Config.maxEvents (s.start .chippresent))

/-- `ST` latched and the status not tested (ISRUNNING.3, GETCAL.3). -/
def afterIgnoredClose (st : Byte) (s : State) : State := (s.setSt st).advance

/-- `CNT` latched and the count not tested (ISRUNNING.4, GETCAL.4). -/
def afterIgnoredRequest (n : Byte) (s : State) : State := (s.setCnt n).advance

/-- The step list of ISRUNNING (R141). -/
def isrunningSteps : Nat → State → Progress
  | 1, s => s.callOnly (.busOpen Config.devAddr)
  | 2, s => s.callOnly (.busWrite Config.regTimeBase)
  | 3, s => s.callBus .busClose afterIgnoredClose
  | 4, s => s.callBus (.busRequest Config.devAddr 1) afterIgnoredRequest
  | 5, s => s.callBus .busRead fun b t => (t.setByte 0 b).advance
  | 6, s => .moved (s.done (answerOk (boolResult (!haltFlag s.latch.raw.b0))))
  | _, _ => .stray

/-- ISRUNNING (R141). -/
def execIsrunning (s : State) : Host.Outcome State Fault Refusal :=
  .next (State.run isrunningSteps Config.maxEvents (s.start .isrunning))

/-- SETCAL.4: the status is reported and nothing else is done with it (R142). -/
def afterCalClose (st : Byte) (s : State) : State :=
  if st = 0 then (s.setSt st).conclude (answerOk 0) else (s.setSt st).raise .busUnavailable (some 0)

/-- The step list of SETCAL (R142). -/
def setcalSteps : Nat → State → Progress
  | 1, s => s.callOnly (.busOpen Config.devAddr)
  | 2, s => s.callOnly (.busWrite Config.regCal)
  | 3, s => s.callOnly (.busWrite (calEncode s.latch.cal))
  | 4, s => s.callBus .busClose afterCalClose
  | _, _ => .stray

/-- SETCAL (R142): the operand is latched in `CAL` at acceptance. -/
def execSetcal (value : Int) (s : State) : Host.Outcome State Fault Refusal :=
  .next (State.run setcalSteps Config.maxEvents ((s.start .setcal).setCal (calLatch value)))

/-- GETCAL.5: the byte, and the signed value it stands for (R143). -/
def afterCalByte (b : Byte) (s : State) : State :=
  ((s.setByte 0 b).setCal (calLatch (calDecode b))).advance

/-- The step list of GETCAL (R143). -/
def getcalSteps : Nat → State → Progress
  | 1, s => s.callOnly (.busOpen Config.devAddr)
  | 2, s => s.callOnly (.busWrite Config.regCal)
  | 3, s => s.callBus .busClose afterIgnoredClose
  | 4, s => s.callBus (.busRequest Config.devAddr 1) afterIgnoredRequest
  | 5, s => s.callBus .busRead afterCalByte
  | 6, s => .moved (s.done (answerOk (byteResult s.latch.cal)))
  | _, _ => .stray

/-- GETCAL (R143). -/
def execGetcal (s : State) : Host.Outcome State Fault Refusal :=
  .next (State.run getcalSteps Config.maxEvents (s.start .getcal))

end Sys2Proof.Machine
end

