-- ==== Sys2Proof/Machine/Transport.lean ====
section
/-! DEFINITION. READ and WRITE (spec/41_transport_time.md rules R130 to R133, R135), and the step lists
GET and SET share with them (spec/43_wrappers.md rules R150, R151). The number of a step is the spec's. -/
namespace Sys2Proof.Machine

/-- The end of a status-checked close that is not the operation's last (READ.3, WRITE.10): `PRESENCE`
follows the status, and a failure ends the operation (R25, R161). -/
def afterCheckedClose (failQ : Option Payload) (st : Byte) (s : State) : State :=
  if st = 0 then ((s.setSt st).setPresence true).advance
  else ((s.setSt st).setPresence false).raise .busUnavailable failQ

/-- READ.4: fewer than 7 bytes end the operation (R130, R162). -/
def afterTimeRequest (failQ : Option Payload) (n : Byte) (s : State) : State :=
  if n.toNat < Config.nTimeRegs.toNat then (s.setCnt n).raise .shortRead failQ
  else (s.setCnt n).advance

/-- READ.5 to READ.10: one byte of the burst. -/
def afterTimeByte (k : Nat) (b : Byte) (s : State) : State := (s.setByte k b).advance

/-- READ.11: the last byte of the burst, and the record decoded (R132). -/
def afterLastTimeByte (b : Byte) (s : State) : State :=
  let t := s.setByte 6 b
  (t.setTf (decodeTime t.years t.latch.raw)).advance

/-- READ.1 to READ.12 (R130): `failQ` is the payload of a failure that decodes no record and `finish` the
completion of step 12. -/
def timeReadSteps (failQ : Option Payload) (finish : Byte → TimeFields → Completion) :
    Nat → State → Progress
  | 1, s => s.callOnly (.busOpen Config.devAddr)
  | 2, s => s.callOnly (.busWrite Config.regTimeBase)
  | 3, s => s.callBus .busClose (afterCheckedClose failQ)
  | 4, s => s.callBus (.busRequest Config.devAddr Config.nTimeRegs) (afterTimeRequest failQ)
  | 5, s => s.callBus .busRead (afterTimeByte 0)
  | 6, s => s.callBus .busRead (afterTimeByte 1)
  | 7, s => s.callBus .busRead (afterTimeByte 2)
  | 8, s => s.callBus .busRead (afterTimeByte 3)
  | 9, s => s.callBus .busRead (afterTimeByte 4)
  | 10, s => s.callBus .busRead (afterTimeByte 5)
  | 11, s => s.callBus .busRead afterLastTimeByte
  | 12, s => .moved (s.done (finish s.latch.raw.b0 s.latch.tf))
  | _, _ => .stray

/-- The step list of READ (R130): `any_56` after a failed probe or a short read (R96). -/
def readSteps : Nat → State → Progress := timeReadSteps none readCompletion

/-- READ (R130). -/
def execRead (s : State) : Host.Outcome State Fault Refusal :=
  .next (State.run readSteps Config.maxEvents (s.start .read))

/-- WRITE.14: the close of the second transaction ends the operation either way (R131). -/
def afterLastClose (st : Byte) (s : State) : State :=
  if st = 0 then ((s.setSt st).setPresence true).conclude (answerOk 0)
  else ((s.setSt st).setPresence false).raise .busUnavailable (some 0)

/-- `E0` to `E6` of the latched record (R133, R74). -/
def State.timeBytes (s : State) : RawBytes := encodeTime s.years s.latch.tf

/-- WRITE.1 to WRITE.14 (R131). The order of the queued bytes and the two transactions are the operation's
meaning (R135). -/
def timeWriteSteps : Nat → State → Progress
  | 1, s => s.callOnly (.busOpen Config.devAddr)
  | 2, s => s.callOnly (.busWrite Config.regTimeBase)
  | 3, s => s.callOnly (.busWrite Config.stopByte)
  | 4, s => s.callOnly (.busWrite s.timeBytes.b1)
  | 5, s => s.callOnly (.busWrite s.timeBytes.b2)
  | 6, s => s.callOnly (.busWrite s.timeBytes.b3)
  | 7, s => s.callOnly (.busWrite s.timeBytes.b4)
  | 8, s => s.callOnly (.busWrite s.timeBytes.b5)
  | 9, s => s.callOnly (.busWrite s.timeBytes.b6)
  | 10, s => s.callBus .busClose (afterCheckedClose (some 0))
  | 11, s => s.callOnly (.busOpen Config.devAddr)
  | 12, s => s.callOnly (.busWrite Config.regTimeBase)
  | 13, s => s.callOnly (.busWrite s.timeBytes.b0)
  | 14, s => s.callBus .busClose afterLastClose
  | _, _ => .stray

/-- WRITE (R131): the record is latched at acceptance. -/
def execWrite (tf : TimeFields) (s : State) : Host.Outcome State Fault Refusal :=
  .next (State.run timeWriteSteps Config.maxEvents ((s.start .write).setTf tf))

end Sys2Proof.Machine
end

