-- ==== Sys2Proof/Machine/Wrappers.lean ====
section
/-! DEFINITION. GET and SET (spec/43_wrappers.md rules R150 to R152): the steps of READ and WRITE in line,
with MAKE_TIME and BREAK_TIME uninterpreted. -/
namespace Sys2Proof.Machine

/-- The step list of GET (R150): READ's, with the source's 0 as the payload of every failure. -/
def getSteps : Nat → State → Progress := timeReadSteps (some 0) getCompletion

/-- GET (R150). -/
def execGet (s : State) : Host.Outcome State Fault Refusal :=
  .next (State.run getSteps Config.maxEvents (s.start .get))

/-- The step list of SET (R151): WRITE's. -/
def setSteps : Nat → State → Progress := timeWriteSteps

/-- SET (R151): at acceptance `TF <- BREAK_TIME(t)`. -/
def execSet (t : Epoch) (s : State) : Host.Outcome State Fault Refusal :=
  .next (State.run setSteps Config.maxEvents ((s.start .set).setTf (Config.breakTime t)))

end Sys2Proof.Machine
end

