-- ==== Sys2Proof/Machine/Dispatch.lean ====
section
/-! DEFINITION. One arm per command of spec/opcode_table.json. -/
namespace Sys2Proof.Machine

def exec (i : Instr) (s : State) : Host.Outcome State Fault Refusal :=
  match i with
  | .get => Sys2Proof.Machine.execGet s
  | .set t => Sys2Proof.Machine.execSet t s
  | .read => Sys2Proof.Machine.execRead s
  | .write tf => Sys2Proof.Machine.execWrite tf s
  | .chippresent => Sys2Proof.Machine.execChippresent s
  | .isrunning => Sys2Proof.Machine.execIsrunning s
  | .setcal value => Sys2Proof.Machine.execSetcal value s
  | .getcal => Sys2Proof.Machine.execGetcal s
  | .dec2bcd value => Sys2Proof.Machine.execDec2bcd value s
  | .bcd2dec bcd => Sys2Proof.Machine.execBcd2dec bcd s

end Sys2Proof.Machine
end

