-- ==== Sys2Proof/Machine/Control.lean ====
section
/-! DEFINITION. What a step of the machine is made of: in IDLE the acceptance of a waiting command and its
execution (spec/20_memory.md rule R70); with a command in flight its continuation from the step `SEQ` names
(spec/10_state.md rules R30, R32, R34); and where a command word stands for the next acceptance. -/
namespace Sys2Proof.Machine

/-- Acceptance of the arbiter's choice and the execution of the accepted command (R70, R164); with no choice
made the block waits. -/
def State.accepted (s : State) : Host.Outcome State Fault Refusal :=
  match s.arbitrate with
  | none => .next s.pass
  | some (r, w) =>
    match decode w with
    | .error _ => .next (s.accept r w).answerIllegal
    | .ok i => exec i (s.accept r w)

/-- The step list of a decoded command. -/
def stepsOf : Instr → Nat → State → Progress
  | .get => getSteps
  | .set _ => setSteps
  | .read => readSteps
  | .write _ => timeWriteSteps
  | .chippresent => chippresentSteps
  | .isrunning => isrunningSteps
  | .setcal _ => setcalSteps
  | .getcal => getcalSteps
  | .dec2bcd value => dec2bcdSteps value
  | .bcd2dec bcd => bcd2decSteps bcd

/-- The command in flight goes on from `SEQ` (R32). While its primitive does not return, the block has no
step (R34): the machine is stuck unless another agent had a move, `quiet` saying that none had. -/
def State.resume (quiet : Bool) (s : State) : Host.Outcome State Fault Refusal :=
  match decode s.latch.cmd with
  | .error _ => .fault .strayStep
  | .ok i =>
    match s.seq with
    | .idle => .fault .strayStep
    | .busy op _ =>
      if op = i.op then
        match State.event (stepsOf i) s with
        | .stray => .fault .strayStep
        | .waiting t => if quiet then .fault .busNeverReturns else .next t
        | .moved t => .next (if t.seq = .idle then t else State.run (stepsOf i) Config.maxEvents t)
      else .fault .strayStep

/-- Requester 0 holds this word on its command port; the port is there even if the list was empty. -/
def holdWord (w : Word) : List Port → List Port
  | [] => [⟨some w, none⟩]
  | p :: ps => { p with cmd := some w } :: ps

/-- The block in IDLE with `w` on the command port of requester 0, requester 0 the arbiter's next choice,
and no other agent moving before the acceptance. -/
def State.withCommand (s : State) (w : Word) : State :=
  { s with
    seq := .idle
    grant := none
    latch := Latches.reset
    bus := none
    ports := holdWord w s.ports
    choices := some 0 :: s.choices
    agenda := [] :: s.agenda }

end Sys2Proof.Machine
end

