-- ==== Sys2Proof/Machine/Step.lean ====
section
/-! DEFINITION. One step of the machine. In IDLE: the other agents move, the arbiter accepts a waiting
command (spec/20_memory.md rule R70) and the operation runs to its completion or to a primitive that does
not return; with nobody waiting the block waits. With a command in flight: it goes on. -/
namespace Sys2Proof.Machine

/-- One step. -/
def step (s : State) : Host.Outcome State Fault Refusal :=
  match s.takeResponses.otherAgents.seq with
  | .idle => s.takeResponses.otherAgents.accepted
  | .busy _ _ => s.takeResponses.otherAgents.resume s.agenda.isEmpty

/-- The word that spec/opcode_table.json numbers, as the command the very next step accepts and runs. -/
def State.withFetchWord (s : State) (nbits w : Nat) : State :=
  s.withCommand (BitVec.ofNat 64 (w % 2 ^ nbits))

end Sys2Proof.Machine
end

