-- ==== Sys2Proof/Safety.lean ====
section
/-! DEFINITION. What a reachable state looks like (the invariant), what a step of a good state may come to,
and the primitives each operation issues, as the step lists of the spec give them. -/
namespace Sys2Proof.Machine

/-- The last step number of each operation (R130, R131, R140 to R143, R150, R151, R127). -/
def lastStep : Op → Nat
  | .get => 12
  | .set => 14
  | .read => 12
  | .write => 14
  | .chippresent => 1
  | .isrunning => 6
  | .setcal => 4
  | .getcal => 6
  | .dec2bcd => 1
  | .bcd2dec => 1

/-- The primitives of READ and GET, all of them (R130). -/
def timeReadCalls : List BusCall :=
  [.busOpen 0x68, .busWrite 0x00, .busClose, .busRequest 0x68 7,
    .busRead, .busRead, .busRead, .busRead, .busRead, .busRead, .busRead]

/-- The first transaction of WRITE and SET (R131, R133). -/
def stopCalls (e : RawBytes) : List BusCall :=
  [.busOpen 0x68, .busWrite 0x00, .busWrite 0x80, .busWrite e.b1, .busWrite e.b2, .busWrite e.b3,
    .busWrite e.b4, .busWrite e.b5, .busWrite e.b6, .busClose]

/-- The second transaction of WRITE and SET (R131, R133). -/
def restartCalls (e : RawBytes) : List BusCall :=
  [.busOpen 0x68, .busWrite 0x00, .busWrite e.b0, .busClose]

/-- The primitives of ISRUNNING and GETCAL (R141, R143). -/
def registerReadCalls (pointer : Byte) : List BusCall :=
  [.busOpen 0x68, .busWrite pointer, .busClose, .busRequest 0x68 1, .busRead]

/-- The primitives of SETCAL (R142). -/
def calWriteCalls (calb : Byte) : List BusCall :=
  [.busOpen 0x68, .busWrite 0x07, .busWrite calb, .busClose]

/-- Every primitive an operation issues when nothing ends it early, in order (R65, R66, R135). -/
def callsOf (years : YearMap) : Instr → List BusCall
  | .get => timeReadCalls
  | .set t =>
    stopCalls (encodeTime years (Config.breakTime t)) ++ restartCalls (encodeTime years (Config.breakTime t))
  | .read => timeReadCalls
  | .write tf => stopCalls (encodeTime years tf) ++ restartCalls (encodeTime years tf)
  | .chippresent => []
  | .isrunning => registerReadCalls 0x00
  | .setcal value => calWriteCalls (calEncode (calLatch value))
  | .getcal => registerReadCalls 0x07
  | .dec2bcd _ => []
  | .bcd2dec _ => []

/-- The trace a conversation leaves: each primitive with its result, where it has one. -/
def traceOf : List BusCall → List Byte → List BusEvent
  | [], _ => []
  | c :: cs, rets =>
    if c.hasResult then
      match rets with
      | [] => []
      | r :: rs => ⟨c, some r⟩ :: traceOf cs rs
    else ⟨c, none⟩ :: traceOf cs rets

/-- A command answered: what a completed operation leaves of the state it started from. The other fields
are as they were. -/
def State.completed (s : State) (presence : Bool) (calls : List BusCall) (rets : List Byte) (e : Env)
    (draws : Nat) (c : Completion) : State :=
  { s with
    presence := presence
    seq := .idle
    grant := none
    latch := Latches.reset
    bus := none
    trace := s.trace ++ traceOf calls rets
    env := e
    draws := draws + c.drawn
    ports := deliver s.grant (responseWord (opField s.latch.cmd) c.err (c.payload draws)) s.ports }

/-- The operand latches hold the operands of the command in flight (R20, R74): TF for WRITE and SET, CAL
for SETCAL. -/
def operandsLatched (i : Instr) (l : Latches) : Bool :=
  match i with
  | .get => true
  | .set t => decide (l.tf = Config.breakTime t)
  | .read => true
  | .write tf => decide (l.tf = tf)
  | .chippresent => true
  | .isrunning => true
  | .setcal value => decide (l.cal = calLatch value)
  | .getcal => true
  | .dec2bcd _ => true
  | .bcd2dec _ => true

/-- The command in flight decodes to an operation that `SEQ` names a step of, and its operands are latched
(R30, R70, R74). -/
def commandInFlight (l : Latches) (op : Op) (step : Nat) : Bool :=
  match decode l.cmd with
  | .error _ => false
  | .ok i => decide (i.op = op) && decide (1 ≤ step) && decide (step ≤ lastStep op) && operandsLatched i l

/-- The owner of the command in flight is a requester of the block and presents no other command
(R20, R70). -/
def ownerWaits (grant : Option Nat) (ports : List Port) : Bool :=
  match grant with
  | none => false
  | some r =>
    match ports[r]? with
    | none => false
    | some p => decide (p.cmd = none)

/-- A command at its first step, its operands latched: what its meaning runs from (R70, R20). -/
def State.started (i : Instr) (s : State) : State :=
  match i with
  | .get => s.start .get
  | .set t => (s.start .set).setTf (Config.breakTime t)
  | .read => s.start .read
  | .write tf => (s.start .write).setTf tf
  | .chippresent => s.start .chippresent
  | .isrunning => s.start .isrunning
  | .setcal value => (s.start .setcal).setCal (calLatch value)
  | .getcal => s.start .getcal
  | .dec2bcd _ => s.start .dec2bcd
  | .bcd2dec _ => s.start .bcd2dec

/-- How many primitives of its operation have returned when `SEQ` is at step `k`: those before the step, and
the step's own one where it has decided the completion that is due (R31, R32). -/
def Latches.returned (l : Latches) (k : Nat) : Nat := if l.due = none then k - 1 else k

/-- The recorded primitives are those of a step list (R65, R66, R135): in flight, exactly the ones of the
command in `CMD` before where `SEQ` stands, and an outstanding one is the next of that list; in IDLE, the
first ones of some command, with none outstanding. -/
def State.ordered (s : State) : Prop :=
  match s.seq with
  | .idle => s.bus = none ∧ ∃ i, s.trace.map (·.call) <+: callsOf s.years i
  | .busy _ k => ∃ i, decode s.latch.cmd = .ok i ∧
      s.trace.map (·.call) = (callsOf s.years i).take (s.latch.returned k) ∧
      ∀ c, s.bus = some c → (callsOf s.years i)[s.latch.returned k]? = some c

/-- How many response ports present a response. -/
def responsesPresented (ports : List Port) : Nat := ports.countP fun p => p.rsp.isSome

/-- The invariant of the block and of the chip's memory: in IDLE nothing of a command remains but `PRESENCE`
and at most one response (R33); in flight R20, R30, R70 and R74 hold and no response is presented; there
is at least one requester (R7); the chip's registers are 0x00 to 0x07 in canonical form (R58). -/
def State.inv (s : State) : Bool :=
  s.env.chip.mem.wf && decide (1 ≤ s.ports.length) &&
  match s.seq with
  | .idle =>
    decide (s.grant = none) && decide (s.latch = Latches.reset) && decide (s.bus = none) &&
      decide (responsesPresented s.ports ≤ 1)
  | .busy op step =>
    ownerWaits s.grant s.ports && commandInFlight s.latch op step &&
      decide (responsesPresented s.ports = 0)

/-- A step comes to something the spec allows: a next state, or the stuck state of R34. -/
def State.stepAllowed (s : State) : Prop :=
  (∃ t, step s = .next t) ∨ step s = .fault .busNeverReturns

/-- No reset, and no start-up of the collaborator, is among the coming moves of the other agents. -/
def noReset (agenda : List (List Move)) : Bool :=
  agenda.all fun ms => ms.all fun m => match m with
    | .rst => false
    | .present _ _ => true
    | .tick _ => true
    | .foreignPointer _ => true
    | .foreignWrite _ _ => true
    | .busInit _ => true

end Sys2Proof.Machine
end

