-- ==== Sys2Proof/Certificates/Slice0/Obligations.lean ====
section
/-! DEFINITION. The statements for the provers. Each docstring names the rule of spec/ it formalises.

A statement of what an operation does with the bus is about every environment: its premise is the
conversation `Env.converse` of the operation's primitives with the collaborator, whatever it answers. Such
a statement has `agenda = []`: no other agent moves while the operation runs. The statements under
"Whatever the other agents do" have no such premise. -/
open Sys2Proof Sys2Proof.Machine

/-! ## Encoding -/

/-- R101: "an encoder is a right inverse only". Decoding an encoded well-formed command gives it back, with
every operand at every value the encoding admits. -/
def Obligations.DecodeEncodeIsIdentity : Prop :=
  ∀ i : Instr, i.wf = true → decode (encode i) = .ok i

/-- The bits of a command word that its operation looks at (R92, R94). -/
def Sys2Proof.Machine.usedBits : Op → Word
  | .get => 0xFF00000000000000
  | .set => 0xFF000000FFFFFFFF
  | .read => 0xFF00000000000000
  | .write => 0xFFFFFFFFFFFFFFFF
  | .chippresent => 0xFF00000000000000
  | .isrunning => 0xFF00000000000000
  | .setcal => 0xFF000000000000FF
  | .getcal => 0xFF00000000000000
  | .dec2bcd => 0xFF000000000000FF
  | .bcd2dec => 0xFF000000000000FF

/-- R99, R101: a legal word decodes to a well-formed command whose encoding is the word with 0 in every
ignored bit. -/
def Obligations.EncodeDecodeClearsIgnoredBits : Prop :=
  ∀ (w : Word) (i : Instr), decode w = .ok i → i.wf = true ∧ encode i = w &&& usedBits i.op

/-- R98: "A command word is illegal when `op` is 0x0 or 0xB to 0xF, or when `rz` is not 0000." -/
def Obligations.IllegalWordsAreExactlyThese : Prop :=
  ∀ w : Word, (∃ e, decode w = .error e) ↔
    ((opField w).toNat = 0 ∨ 0xB ≤ (opField w).toNat ∨ rzField w ≠ 0)

/-- R94, R101: words written out from the table decode to the commands they stand for, ignored bits set in
some of them. -/
def Obligations.TableWordsDecode : Prop :=
  decode 0x1000000000000000 = .ok .get ∧
  decode 0x20FFFFFF65E11A7E = .ok (.set 1709251198) ∧
  decode 0x30FFFFFFFFFFFFFF = .ok .read ∧
  decode 0x4036021D05173B3A = .ok (.write ⟨58, 59, 23, 5, 29, 2, 54⟩) ∧
  decode 0x50123456789ABCDE = .ok .chippresent ∧
  decode 0x6000000000000000 = .ok .isrunning ∧
  decode 0x70FFFFFFFFFFFFFB = .ok (.setcal (-5)) ∧
  decode 0x8000000000000000 = .ok .getcal ∧
  decode 0x90FFFFFFFFFFFF3B = .ok (.dec2bcd 59) ∧
  decode 0xA000000000000059 = .ok (.bcd2dec 0x59)

/-- R95, R97: where each field of a response word stands. -/
def Obligations.ResponseWordLayout : Prop :=
  ∀ (op : BitVec 4) (err : Option ErrorKind) (q : Payload),
    (responseWord op err q).extractLsb' 60 4 = op ∧
    ((responseWord op err q).getLsbD 59 = true ↔ err = none) ∧
    (responseWord op err q).extractLsb' 56 3 =
      (match err with
        | none => 0 | some .busUnavailable => 1 | some .shortRead => 2
        | some .clockHalted => 3 | some .illegalCommand => 4) ∧
    (responseWord op err q).extractLsb' 0 56 = q

/-! ## Acceptance and the step -/

/-- R70: in IDLE the arbiter's choice is accepted. A step from IDLE, with no other agent moving, is `exec` of the
decoded command at the state after acceptance. That one step is the acceptance and the whole operation is the
model's choice (log 8, DESIGN CHOICE): in R31 and R70 acceptance and each primitive are events of their own. -/
def Obligations.StepRunsTheAcceptedCommand : Prop :=
  ∀ (s : State) (r : Nat) (w : Word) (i : Instr), s.agenda = [] → s.seq = .idle →
    s.takeResponses.arbitrate = some (r, w) → decode w = .ok i →
    step s = exec i (s.takeResponses.accept r w)

/-- R70: acceptance "sets `GRANT <- r`, `CMD <- cmd[r]`"; the command port of `r` is free again, the others
keep their words, and `PRESENCE` and the environment are as they were. -/
def Obligations.AcceptanceGrantsAndLatches : Prop :=
  ∀ (s : State) (r : Nat) (w : Word), s.arbitrate = some (r, w) →
    (s.accept r w).grant = some r ∧ (s.accept r w).latch.cmd = w ∧
    ((s.accept r w).ports[r]?.map (·.cmd)) = some none ∧
    (∀ q, q ≠ r → (s.accept r w).ports[q]? = s.ports[q]?) ∧
    (s.accept r w).presence = s.presence ∧ (s.accept r w).env = s.env

/-- R98, R164: an illegal word "is accepted, issues no primitive, changes no state (not `PRESENCE` either),
and is answered" with `ok = 0`, `err = 4`, `Q = 0`, `op = CMD[63:60]`. The other requesters keep their words and
get no response. That it is answered within the step that accepts it is the model's reading (log 16), and that
the latches hold 0 afterwards is the model's choice (log 1, log 19). -/
def Obligations.IllegalWordAnswered : Prop :=
  ∀ (s : State) (r : Nat) (w : Word) (e : IllegalWord), s.agenda = [] → s.seq = .idle →
    s.takeResponses.arbitrate = some (r, w) → decode w = .error e →
    ∃ t, step s = .next t ∧ t.presence = s.presence ∧ t.env = s.env ∧ t.trace = [] ∧ t.bus = none ∧
      t.seq = .idle ∧ t.grant = none ∧ t.latch = Latches.reset ∧ t.years = s.years ∧
      t.ports[r]? = some ⟨none, some (opField w ++ (0 : BitVec 1) ++ (4 : BitVec 3) ++ (0 : BitVec 56))⟩ ∧
      ∀ q, q ≠ r → t.ports[q]? = s.ports[q]?.map fun p => ⟨p.cmd, none⟩

/-- R37, R70: with no command presented the block waits in IDLE, and nothing of it changes. -/
def Obligations.IdleBlockWaits : Prop :=
  ∀ s : State, s.agenda = [] → s.seq = .idle → (∀ p ∈ s.ports, p.cmd = none) →
    step s = .next s.takeResponses

/-- The word placed by `withFetchWord` is the command the very next step runs, from any state. -/
def Obligations.FetchWordRunsNext : Prop :=
  ∀ (s : State) (n : Nat) (i : Instr), decode (BitVec.ofNat 64 (n % 2 ^ 64)) = .ok i →
    ∃ t, t.grant = some 0 ∧ t.latch.cmd = BitVec.ofNat 64 (n % 2 ^ 64) ∧ t.presence = s.presence ∧
      t.env = s.env ∧ t.trace = [] ∧ step (s.withFetchWord 64 n) = exec i t

/-- A step that finds a command in flight executes the event `SEQ` names, which is the next one by R32, and
runs on from there. That it runs on past that event is the model's choice (log 8, DESIGN CHOICE): R31 makes one
event one step of the sequencer. -/
def Obligations.StepContinuesCommandInFlight : Prop :=
  ∀ (s t : State) (i : Instr) (k : Nat), s.agenda = [] → s.seq = .busy i.op k →
    decode s.latch.cmd = .ok i → State.event (stepsOf i) s.takeResponses = .moved t →
    step s = .next (if t.seq = .idle then t else State.run (stepsOf i) Config.maxEvents t)

/-! ## The codec -/

/-- R120, R127: DEC2BCD answers `trunc_8((value div 10) * 16 + (value mod 10))`, always with `ok = 1`, and
issues no primitive; everything else is as it was. -/
def Obligations.Dec2bcdAnswersTheFormula : Prop :=
  ∀ (s : State) (v : Byte), s.agenda = [] →
    exec (.dec2bcd v) s = .next (s.completed s.presence [] [] s.env s.draws
      (answerOk (BitVec.ofNat 56 ((v.toNat / 10 * 16 + v.toNat % 10) % 256))))

/-- R121, R127: BCD2DEC answers `(bcd div 16) * 10 + (bcd mod 16)`, at most 165, always with `ok = 1`. -/
def Obligations.Bcd2decAnswersTheFormula : Prop :=
  ∀ (s : State) (b : Byte), s.agenda = [] →
    exec (.bcd2dec b) s = .next (s.completed s.presence [] [] s.env s.draws
      (answerOk (BitVec.ofNat 56 (b.toNat / 16 * 10 + b.toNat % 16)))) ∧
    b.toNat / 16 * 10 + b.toNat % 16 ≤ 165

/-- R123: the round trip holds for 0 to 159 and fails from 160 on; in the other direction it holds exactly
when the low nibble is 0 to 9. -/
def Obligations.CodecRoundTrips : Prop :=
  (∀ v : Byte, bcd2dec (dec2bcd v) = v ↔ v.toNat < 160) ∧
  (∀ b : Byte, dec2bcd (bcd2dec b) = b ↔ b.toNat % 16 ≤ 9)

/-! ## Status and calibration -/

/-- R140: CHIPPRESENT answers the flag in `Q[0]`, with no bus access and no other effect. -/
def Obligations.ChippresentAnswersTheFlag : Prop :=
  ∀ s : State, s.agenda = [] →
    exec .chippresent s = .next (s.completed s.presence [] [] s.env s.draws
      (answerOk (if s.presence then 1 else 0)))

/-- R141: ISRUNNING answers 1 in `Q[0]` exactly when bit 7 of the byte is clear, `ok = 1` whatever the status
and the count were, `PRESENCE` untouched. -/
def Obligations.IsrunningAnswersTheHaltBit : Prop :=
  ∀ (s : State) (st n b : Byte) (e : Env) (d : Nat), s.agenda = [] →
    s.env.converse s.draws (registerReadCalls 0x00) = some ([st, n, b], e, d) →
    exec .isrunning s = .next (s.completed s.presence (registerReadCalls 0x00) [st, n, b] e d
      (answerOk (if b.getLsbD 7 then 0 else 1)))

/-- R142: SETCAL queues 0x07 and the byte `(abs(value) & 0x1F) | (value >= 0 ? 0x20 : 0x00)`, and reports
the status of the close; `PRESENCE` is not touched. -/
def Obligations.SetcalWritesTheByte : Prop :=
  ∀ (s : State) (v : Int) (calb st : Byte) (e : Env) (d : Nat), s.agenda = [] → -128 ≤ v → v ≤ 127 →
    calb = BitVec.ofNat 8 (v.natAbs % 32 + (if 0 ≤ v then 32 else 0)) →
    s.env.converse s.draws (calWriteCalls calb) = some ([st], e, d) →
    exec (.setcal v) s = .next (s.completed s.presence (calWriteCalls calb) [st] e d
      (if st = 0 then answerOk 0 else answerFail .busUnavailable (some 0)))

/-- R143: GETCAL answers the magnitude in bits 4:0 of the byte, negated when bit 5 is clear, `ok = 1`
whatever the status and the count were, `PRESENCE` untouched. -/
def Obligations.GetcalReadsTheByte : Prop :=
  ∀ (s : State) (st n b : Byte) (e : Env) (d : Nat), s.agenda = [] →
    s.env.converse s.draws (registerReadCalls 0x07) = some ([st, n, b], e, d) →
    exec .getcal s = .next (s.completed s.presence (registerReadCalls 0x07) [st, n, b] e d
      (answerOk ((BitVec.ofInt 8 (if b.getLsbD 5 then (b.toNat % 32 : Nat) else -((b.toNat % 32 : Nat) : Int))).setWidth 56)))

/-! ## READ and WRITE -/

/-- R130 (READ.3), R161: a probe whose close reports a non-zero status sets `PRESENCE` to 0 and fails with
BusUnavailable; no request and no read is issued, and the payload is a free draw. -/
def Obligations.ReadFailsOnTheProbe : Prop :=
  ∀ (s : State) (st : Byte) (e : Env) (d : Nat), s.agenda = [] →
    s.env.converse s.draws [.busOpen 0x68, .busWrite 0x00, .busClose] = some ([st], e, d) → st ≠ 0 →
    exec .read s = .next (s.completed false [.busOpen 0x68, .busWrite 0x00, .busClose] [st] e d
      (answerFail .busUnavailable none))

/-- R130 (READ.4), R162: a count below 7 fails with ShortRead, `PRESENCE` is 1, no read is issued, and the
payload is a free draw. -/
def Obligations.ReadFailsOnAShortBurst : Prop :=
  ∀ (s : State) (n : Byte) (e : Env) (d : Nat), s.agenda = [] →
    s.env.converse s.draws [.busOpen 0x68, .busWrite 0x00, .busClose, .busRequest 0x68 7] =
      some ([0, n], e, d) → n.toNat < 7 →
    exec .read s = .next (s.completed true
      [.busOpen 0x68, .busWrite 0x00, .busClose, .busRequest 0x68 7] [0, n] e d (answerFail .shortRead none))

/-- R130, R132: with a good probe and at least 7 bytes, READ answers the decoded record; bit 7 of the raw
seconds byte makes it a ClockHalted failure that carries the record all the same. -/
def Obligations.ReadDecodesTheBurst : Prop :=
  ∀ (s : State) (n b0 b1 b2 b3 b4 b5 b6 : Byte) (e : Env) (d : Nat) (tf : TimeFields), s.agenda = [] →
    s.env.converse s.draws timeReadCalls = some ([0, n, b0, b1, b2, b3, b4, b5, b6], e, d) →
    7 ≤ n.toNat →
    tf = ⟨bcd2dec (b0 &&& 0x7F), bcd2dec b1, bcd2dec (b2 &&& 0xBF), bcd2dec b3, bcd2dec b4, bcd2dec b5,
      s.years.ofChip (bcd2dec b6)⟩ →
    exec .read s = .next (s.completed true timeReadCalls [0, n, b0, b1, b2, b3, b4, b5, b6] e d
      ⟨if b0.getLsbD 7 then some .clockHalted else none, some tf.toPayload⟩)

/-- R133: the seven bytes of a record. -/
def Sys2Proof.Machine.recordBytes (years : YearMap) (tf : TimeFields) : RawBytes :=
  ⟨dec2bcd tf.second, dec2bcd tf.minute, dec2bcd tf.hour, dec2bcd tf.wday, dec2bcd tf.day, dec2bcd tf.month,
    dec2bcd (years.toChip tf.year)⟩

/-- R131 (WRITE.10), R161: a failed first transaction sets `PRESENCE` to 0, fails with BusUnavailable, and the
second transaction is not attempted. -/
def Obligations.WriteStopsAtAFailedFirstClose : Prop :=
  ∀ (s : State) (tf : TimeFields) (st : Byte) (e : Env) (d : Nat), s.agenda = [] →
    s.env.converse s.draws (stopCalls (recordBytes s.years tf)) = some ([st], e, d) → st ≠ 0 →
    exec (.write tf) s = .next (s.completed false (stopCalls (recordBytes s.years tf)) [st] e d
      (answerFail .busUnavailable (some 0)))

/-- R131, R133, R135: after a good first transaction WRITE issues the second, fourteen primitives in this
order; the status of the second close decides the answer and `PRESENCE`. -/
def Obligations.WriteIssuesBothTransactions : Prop :=
  ∀ (s : State) (tf : TimeFields) (st : Byte) (e : Env) (d : Nat) (calls : List BusCall), s.agenda = [] →
    calls = stopCalls (recordBytes s.years tf) ++ restartCalls (recordBytes s.years tf) →
    s.env.converse s.draws calls = some ([0, st], e, d) →
    exec (.write tf) s = .next (s.completed (decide (st = 0)) calls [0, st] e d
      (if st = 0 then answerOk 0 else answerFail .busUnavailable (some 0)))

/-! ## GET and SET -/

/-- R150: GET fails where READ fails before the burst, with `Q` = 0. -/
def Obligations.GetFailsWithZero : Prop :=
  (∀ (s : State) (st : Byte) (e : Env) (d : Nat), s.agenda = [] →
    s.env.converse s.draws [.busOpen 0x68, .busWrite 0x00, .busClose] = some ([st], e, d) → st ≠ 0 →
    exec .get s = .next (s.completed false [.busOpen 0x68, .busWrite 0x00, .busClose] [st] e d
      (answerFail .busUnavailable (some 0)))) ∧
  (∀ (s : State) (n : Byte) (e : Env) (d : Nat), s.agenda = [] →
    s.env.converse s.draws [.busOpen 0x68, .busWrite 0x00, .busClose, .busRequest 0x68 7] =
      some ([0, n], e, d) → n.toNat < 7 →
    exec .get s = .next (s.completed true
      [.busOpen 0x68, .busWrite 0x00, .busClose, .busRequest 0x68 7] [0, n] e d (answerFail .shortRead (some 0))))

/-- R150: with a good burst GET answers MAKE_TIME of the decoded record in `Q[31:0]`, or fails with
ClockHalted and 0. MAKE_TIME is uninterpreted. -/
def Obligations.GetConvertsTheRecord : Prop :=
  ∀ (s : State) (n b0 b1 b2 b3 b4 b5 b6 : Byte) (e : Env) (d : Nat) (tf : TimeFields), s.agenda = [] →
    s.env.converse s.draws timeReadCalls = some ([0, n, b0, b1, b2, b3, b4, b5, b6], e, d) →
    7 ≤ n.toNat →
    tf = ⟨bcd2dec (b0 &&& 0x7F), bcd2dec b1, bcd2dec (b2 &&& 0xBF), bcd2dec b3, bcd2dec b4, bcd2dec b5,
      s.years.ofChip (bcd2dec b6)⟩ →
    exec .get s = .next (s.completed true timeReadCalls [0, n, b0, b1, b2, b3, b4, b5, b6] e d
      (if b0.getLsbD 7 then answerFail .clockHalted (some 0)
        else answerOk ((Config.makeTime tf).setWidth 56)))

/-- R151: SET issues WRITE's first transaction for the record BREAK_TIME gives, and fails as WRITE does. -/
def Obligations.SetStopsAtAFailedFirstClose : Prop :=
  ∀ (s : State) (t : Epoch) (st : Byte) (e : Env) (d : Nat), s.agenda = [] →
    s.env.converse s.draws (stopCalls (recordBytes s.years (Config.breakTime t))) = some ([st], e, d) →
    st ≠ 0 →
    exec (.set t) s = .next (s.completed false (stopCalls (recordBytes s.years (Config.breakTime t))) [st]
      e d (answerFail .busUnavailable (some 0)))

/-- R151: SET is `TF <- BREAK_TIME(t)` and WRITE's steps, with WRITE's result. BREAK_TIME is
uninterpreted. -/
def Obligations.SetIssuesBothTransactions : Prop :=
  ∀ (s : State) (t : Epoch) (st : Byte) (e : Env) (d : Nat) (calls : List BusCall), s.agenda = [] →
    calls = stopCalls (recordBytes s.years (Config.breakTime t)) ++
      restartCalls (recordBytes s.years (Config.breakTime t)) →
    s.env.converse s.draws calls = some ([0, st], e, d) →
    exec (.set t) s = .next (s.completed (decide (st = 0)) calls [0, st] e d
      (if st = 0 then answerOk 0 else answerFail .busUnavailable (some 0)))

/-! ## Whatever the other agents do -/

/-- R65, R66, R135: the primitives of a command are issued in the order of its step list, none merged,
repeated, dropped or reordered, whatever the collaborator answers and whatever the other agents do: those that
have returned, and after them the one that has not, are the first ones of the list. -/
def Obligations.PrimitivesFollowTheStepList : Prop :=
  ∀ (i : Instr) (s t : State), s.trace = [] → s.bus = none → exec i s = .next t →
    (t.trace.map (·.call) ++ t.bus.toList) <+: callsOf s.years i

/-- R50, R51, R54: the device address never varies, in the primitives that have returned and in the one that
has not. -/
def Obligations.DeviceAddressNeverVaries : Prop :=
  ∀ (i : Instr) (s t : State), s.trace = [] → s.bus = none → exec i s = .next t →
    ∀ c ∈ t.trace.map (·.call) ++ t.bus.toList, c.addrLines = none ∨ c.addrLines = some 0x68

/-- R65, R66, R135, over every step, one that takes up a command in flight again included: if the recorded
primitives are exactly those of the command in `CMD` before where `SEQ` stands, with an outstanding one the
next of its list, then so they are after the step, whatever the collaborator answers and whatever the other
agents do. In IDLE they are the first ones of some command's list and none is outstanding. -/
def Obligations.StepKeepsPrimitivesInOrder : Prop :=
  ∀ s t : State, s.inv = true → s.ordered → step s = .next t → t.ordered

/-- R25: nothing but READ, WRITE, GET, SET and reset writes `PRESENCE`. -/
def Obligations.PresenceWrittenOnlyByTransfers : Prop :=
  ∀ (i : Instr) (s t : State), i.op ≠ .read → i.op ≠ .write → i.op ≠ .get → i.op ≠ .set →
    noReset s.agenda = true → exec i s = .next t → t.presence = s.presence

/-- R32: an operation ends after a bounded number of events, at most 14 of them primitives, or it stands at
a primitive that has not returned. -/
def Obligations.OperationEndsOrWaits : Prop :=
  ∀ (i : Instr) (s t : State), exec i s = .next t →
    (t.seq = .idle ∨ t.bus ≠ none) ∧ t.trace.length ≤ s.trace.length + 14

/-- R32, R33: where every primitive returns, as in the reference environment and its variants, and there is
no reset, the operation completes and its requester has a response. -/
def Obligations.AnsweringCollaboratorCompletes : Prop :=
  ∀ (i : Instr) (s t : State) (r : Nat), (∀ l, s.env.kind ≠ .unspecified l) → noReset s.agenda = true →
    s.grant = some r → r < s.ports.length → exec i s = .next t →
    t.seq = .idle ∧ ∃ w, t.ports[r]?.map (·.rsp) = some (some w)

/-- R33: "After it, nothing of the finished command remains in the block except the value of `PRESENCE`." -/
def Obligations.NothingOfAFinishedCommandRemains : Prop :=
  ∀ (i : Instr) (s t : State), exec i s = .next t → t.seq = .idle →
    t.grant = none ∧ t.latch = Latches.reset ∧ t.bus = none

/-- R34: "If the collaborator never completes a primitive, the block stays at that step for ever": a command
that has not completed, with no other agent moving, has no step. -/
def Obligations.UnansweredPrimitiveIsStuck : Prop :=
  ∀ (i : Instr) (s t : State), decode s.latch.cmd = .ok i → exec i s = .next t → t.seq ≠ .idle →
    t.agenda = [] → step t = .fault .busNeverReturns

/-- R70, R71: while a command is in flight nothing else is accepted: a word on a command port stays there. -/
def Obligations.WaitingRequestersKeepTheirWords : Prop :=
  ∀ (i : Instr) (s t : State) (r : Nat) (w : Word), s.ports[r]?.map (·.cmd) = some (some w) →
    exec i s = .next t → t.ports[r]?.map (·.cmd) = some (some w)

/-- R33, R168: the response is delivered to the requester that issued the command and to nobody else. -/
def Obligations.ResponseOnlyToTheOwner : Prop :=
  ∀ (i : Instr) (s t : State) (r : Nat) (w : Word), (∀ p ∈ s.ports, p.rsp = none) →
    exec i s = .next t → t.ports[r]?.map (·.rsp) = some (some w) → s.grant = some r

/-- R7: the number of requesters and the year mapping are parameters; no step changes them. -/
def Obligations.ParametersStayFixed : Prop :=
  ∀ s t : State, step s = .next t → t.ports.length = s.ports.length ∧ t.years = s.years

/-! ## The arbiter -/

/-- R70: "the arbiter picks one of them": the picked word is on the command port of the picked requester,
with nobody waiting nobody is picked, and a requester that waits and is the coming choice is picked. That the
coming choices stand in the state as a list is the model's (log 9). -/
def Obligations.ArbiterPicksAWaitingRequester : Prop :=
  ∀ s : State, (∀ r w, s.arbitrate = some (r, w) → s.ports[r]?.map (·.cmd) = some (some w)) ∧
    ((∀ p ∈ s.ports, p.cmd = none) → s.arbitrate = none) ∧
    (∀ r w rest, s.ports[r]?.map (·.cmd) = some (some w) → s.choices = some r :: rest →
      s.arbitrate = some (r, w))

/-- R72: "A model must admit every choice; it may not assume that a waiting requester is ever picked": for
each waiting requester there are coming choices that pick it, and there are coming choices that pick nobody,
for any number of steps. That the coming choices stand in the state as a list, of which such a step uses one
and one draw, is the model's (log 9, DESIGN CHOICE). -/
def Obligations.ArbiterAdmitsEveryChoice : Prop :=
  (∀ (s : State) (r : Nat) (w : Word), s.ports[r]?.map (·.cmd) = some (some w) →
    ∃ choices, ({ s with choices := choices } : State).arbitrate = some (r, w)) ∧
  (∀ (s : State) (n : Nat), s.agenda = [] → s.seq = .idle → (∃ p ∈ s.ports, p.cmd ≠ none) →
    step { s with choices := List.replicate (n + 1) none } =
      .next { s.takeResponses with choices := List.replicate n none, draws := s.draws + 1 })

/-! ## Reset and the invariant -/

/-- R37, R180: the values of the block after a reset event, from any state; no primitive is issued. Taken in
IDLE it leaves the chip and the collaborator as they were (R37, R182); for a reset in mid-command see
`ResetAbandonsTheCommand` and log 13. -/
def Obligations.ResetEventValues : Prop :=
  ∀ s : State, s.rst.presence = false ∧ s.rst.seq = .idle ∧ s.rst.grant = none ∧ s.rst.bus = none ∧
    (∀ p ∈ s.rst.ports, p.rsp = none) ∧ s.rst.trace = s.trace ∧ (s.seq = .idle → s.rst.env = s.env)

/-- R181: a reset with a command in flight abandons it. Let the reset be the move after any number of events
of the command, `u` the state those events lead to, in flight with no primitive outstanding. Then the command
ends there: no requester gets a response, no further primitive is issued, and the command ports are as they
were. That the environment keeps the chip, the queue and the buffer and answers by free draws from then on is
the model's choice (log 13, DESIGN CHOICE), since R181 gives no guarantee there; that the latches hold 0 is the
model's choice too (log 1, DESIGN CHOICE), since R37 and R180 leave them unspecified. -/
def Obligations.ResetAbandonsTheCommand : Prop :=
  ∀ (i : Instr) (s u : State) (before rest : List (List Move)), s.bus = none →
    s.agenda = before ++ [.rst] :: rest → u = State.run (stepsOf i) before.length (s.started i) →
    u.seq ≠ .idle → u.bus = none →
    ∃ t, exec i s = .next t ∧ t.seq = .idle ∧ t.grant = none ∧ t.latch = Latches.reset ∧ t.bus = none ∧
      t.presence = false ∧ t.trace = u.trace ∧ t.agenda = rest ∧
      t.ports = u.ports.map (fun p => ⟨p.cmd, none⟩) ∧ t.env = { u.env with kind := .unspecified [] }

/-- The reset state has the invariant, and its empty record is one of primitives in order. -/
def Obligations.ResetHasTheInvariant : Prop := State.reset.inv = true ∧ State.reset.ordered

/-- From every state with the invariant, whatever the collaborator answers and the other agents do, a step
gives a state with the invariant (R20, R30, R33, R58, R70, R74). That the latches hold 0 in IDLE, a clause of it,
is the model's choice (log 1, log 19). -/
def Obligations.StepKeepsTheInvariant : Prop :=
  ∀ s t : State, s.inv = true → step s = .next t → t.inv = true

/-- From every state with the invariant a step gives a next state, or the machine stands at a primitive that
never returns (R34): no other fault, no refusal. -/
def Obligations.StepNeverStrays : Prop := ∀ s : State, s.inv = true → s.stepAllowed

/-! ## The chip behind the bus -/

/-- R65: the chip registers each operation may change: none for READ, GET, ISRUNNING, GETCAL, CHIPPRESENT,
DEC2BCD and BCD2DEC; 0x07 for SETCAL; 0x00 to 0x06 for WRITE and SET. Every other register reads as
before. With the unspecified collaborator, which does not touch the chip in the state, it says nothing of the
hardware (log 26). -/
def Obligations.ChipRegisterFrame : Prop :=
  ∀ (i : Instr) (s t : State) (a : Nat), s.agenda = [] → s.env.chip.mem.wf = true → exec i s = .next t →
    (match i with
      | .get => True | .read => True | .isrunning => True | .getcal => True
      | .chippresent => True | .dec2bcd _ => True | .bcd2dec _ => True
      | .setcal _ => a ≠ 7
      | .write _ => 7 ≤ a
      | .set _ => 7 ≤ a) →
    t.env.chip.mem.read a = s.env.chip.mem.read a

/-- R65, R68, R77, R133: under ENV-H a WRITE completes, register `j` of 0x00 to 0x06 holds the byte `Ej`, and
register 0x07 is as it was. -/
def Obligations.WriteStoresTheRecord : Prop :=
  ∀ (s : State) (tf : TimeFields), s.agenda = [] → s.env.kind = .healthy → s.env.chip.mem.wf = true →
    ∃ t, exec (.write tf) s = .next t ∧ t.presence = true ∧
      t.env.chip.mem.burst 0 0 8 =
        [dec2bcd tf.second, dec2bcd tf.minute, dec2bcd tf.hour, dec2bcd tf.wday, dec2bcd tf.day,
          dec2bcd tf.month, dec2bcd (s.years.toChip tf.year), s.env.chip.mem.read 7]

/-- R77: under ENV-H a write transaction that stays within the registers puts its bytes into successive
registers from the pointer, all at the close, and reports 0; every other register is as it was, the pointer is
past the last byte, the queue is empty. Before the close the bytes are in the queue and the chip is as it
was. -/
def Obligations.HealthyCloseAppliesTheQueue : Prop :=
  ∀ (e : Env) (d : Nat) (p : Byte) (ds : List Byte), e.kind = .healthy → e.chip.mem.wf = true →
    p.toNat + ds.length ≤ 8 →
    e.converse d (.busOpen 0x68 :: .busWrite p :: ds.map BusCall.busWrite) =
      some ([], { e with queue := p :: ds }, d) ∧
    ∃ e', e.converse d (.busOpen 0x68 :: .busWrite p :: ds.map BusCall.busWrite ++ [.busClose]) =
        some ([0], e', d) ∧
      e'.kind = .healthy ∧ e'.queue = [] ∧ e'.buffer = e.buffer ∧ e'.chip.ptr = p.toNat + ds.length ∧
      (∀ j b, ds[j]? = some b → e'.chip.mem.read (p.toNat + j) = b) ∧
      ∀ a, a < p.toNat ∨ p.toNat + ds.length ≤ a → e'.chip.mem.read a = e.chip.mem.read a

/-- R78: under ENV-H a burst of `k` reads the registers from the pointer on, sampled at the request, all at
once, and moves the pointer by `k`. After the request alone the buffer holds them; each read takes the head of
the buffer, whatever the chip holds by then; a read of an empty buffer is the next free draw (`any_8`, log 10)
and changes nothing else. -/
def Obligations.HealthyBurstSamplesTheRegisters : Prop :=
  (∀ (e : Env) (d : Nat) (k : Byte), e.kind = .healthy → e.chip.ptr + k.toNat ≤ 8 →
    ∃ d', e.converse d [.busRequest 0x68 k] =
        some ([k], { e with
          chip := { e.chip with ptr := e.chip.ptr + k.toNat }
          buffer := (List.range k.toNat).map fun j => e.chip.mem.read (e.chip.ptr + j) }, d') ∧
      e.converse d (.busRequest 0x68 k :: List.replicate k.toNat .busRead) =
        some (k :: (List.range k.toNat).map (fun j => e.chip.mem.read (e.chip.ptr + j)),
          { e with chip := { e.chip with ptr := e.chip.ptr + k.toNat }, buffer := [] }, d')) ∧
  (∀ (e : Env) (d : Nat) (b : Byte) (bs : List Byte), e.kind = .healthy → e.buffer = b :: bs →
    e.answer .busRead d = some ⟨b, { e with buffer := bs }, d⟩) ∧
  (∀ (e : Env) (d : Nat), e.kind = .healthy → e.buffer = [] →
    e.answer .busRead d = some ⟨Config.any8 d, e, d + 1⟩)

/-- R81: "While `reg[0x00][7] = 1` the chip's agent has no step." -/
def Obligations.HaltedChipHasNoStep : Prop :=
  ∀ (c : Chip) (time : RawBytes), (c.mem.read 0).getLsbD 7 = true → c.tick time = c

/-- R80: while the halt flag is clear a step of the chip leaves it clear, puts the bytes into registers 0x00
to 0x06 and touches neither another register nor the pointer. Which bytes a step may put there is the model's
choice (log 14). -/
def Obligations.RunningChipTicks : Prop :=
  ∀ (c : Chip) (time : RawBytes), c.mem.wf = true → (c.mem.read 0).getLsbD 7 = false →
    (c.tick time).mem.burst 0 0 8 =
      [time.b0 &&& 0x7F, time.b1, time.b2, time.b3, time.b4, time.b5, time.b6, c.mem.read 7] ∧
    (c.tick time).ptr = c.ptr

/-- R184: Second 80 to 99 leaves the halt bit of the seconds byte set, and Hour 40 to 79 sets bit 6 of the
hours byte; in the declared ranges both bits are clear. -/
def Obligations.OutOfRangeFieldsChangeTheMode : Prop :=
  ∀ (years : YearMap) (tf : TimeFields),
    (80 ≤ tf.second.toNat → tf.second.toNat ≤ 99 → (encodeTime years tf).b0.getLsbD 7 = true) ∧
    (40 ≤ tf.hour.toNat → tf.hour.toNat ≤ 79 → (encodeTime years tf).b2.getLsbD 6 = true) ∧
    (tf.inDeclaredRanges = true → (encodeTime years tf).b0.getLsbD 7 = false ∧
      (encodeTime years tf).b2.getLsbD 6 = false ∧ (encodeTime years tf).b2.getLsbD 7 = false)

/-- The word on the response port of requester 0. -/
def Sys2Proof.Machine.State.answer0 (s : State) : Option Word := s.ports.head?.bind (·.rsp)

/-- R134: "`read(write(tm))` yields a record equal to `tm` in every field", under ENV-H with no tick between
the two commands, for fields in their declared ranges and a year the mapping carries. -/
def Obligations.WriteThenReadReturnsTheRecord : Prop :=
  ∀ (s : State) (tf : TimeFields), s.agenda = [] → s.env.kind = .healthy → s.env.chip.mem.wf = true →
    tf.inDeclaredRanges = true → s.years.ofChip (s.years.toChip tf.year) = tf.year →
    (s.years.toChip tf.year).toNat ≤ 99 →
    ∃ t u, step (s.withCommand (encode (.write tf))) = .next t ∧
      step (t.withCommand (encode .read)) = .next u ∧ u.presence = true ∧
      u.answer0 = some ((3 : BitVec 4) ++ (1 : BitVec 1) ++ (0 : BitVec 3) ++ tf.toPayload)

/-- S3 (spec/95_test_vectors.md), R131, R141: under ENV-H, ISRUNNING after WRITE answers true for Second 0
to 79 and false for Second 80 to 99. -/
def Obligations.WriteThenIsrunning : Prop :=
  ∀ (s : State) (tf : TimeFields), s.agenda = [] → s.env.kind = .healthy → s.env.chip.mem.wf = true →
    tf.second.toNat ≤ 99 →
    ∃ t u, step (s.withCommand (encode (.write tf))) = .next t ∧
      step (t.withCommand (encode .isrunning)) = .next u ∧
      u.answer0 = some ((6 : BitVec 4) ++ (1 : BitVec 1) ++ (0 : BitVec 3) ++
        (if tf.second.toNat ≤ 79 then (1 : BitVec 56) else 0))

/-- R144: under ENV-H, GETCAL after SETCAL `v` answers `sign * (abs(v) mod 32)`; after SETCAL 0 the register
holds 0x20. -/
def Obligations.CalibrationRoundTrip : Prop :=
  ∀ (s : State) (v : Int), s.agenda = [] → s.env.kind = .healthy → s.env.chip.mem.wf = true →
    -128 ≤ v → v ≤ 127 →
    ∃ t u, step (s.withCommand (encode (.setcal v))) = .next t ∧
      step (t.withCommand (encode .getcal)) = .next u ∧
      (v = 0 → t.env.chip.mem.read 7 = 0x20) ∧
      u.answer0 = some ((8 : BitVec 4) ++ (1 : BitVec 1) ++ (0 : BitVec 3) ++
        ((BitVec.ofInt 8 (if 0 ≤ v then ((v.natAbs % 32 : Nat) : Int) else -((v.natAbs % 32 : Nat) : Int))).setWidth 56))

/-- S4 (spec/95_test_vectors.md), R79, R130, R140: with an absent chip READ fails with BusUnavailable and
CHIPPRESENT then answers 0. -/
def Obligations.AbsentChipIsReported : Prop :=
  ∀ s : State, s.agenda = [] → s.env.kind = .absent →
    ∃ (t u : State) (q : Payload), step (s.withCommand (encode .read)) = .next t ∧
      t.answer0 = some ((3 : BitVec 4) ++ (0 : BitVec 1) ++ (1 : BitVec 3) ++ q) ∧ t.presence = false ∧
      step (t.withCommand (encode .chippresent)) = .next u ∧
      u.answer0 = some ((5 : BitVec 4) ++ (1 : BitVec 1) ++ (0 : BitVec 3) ++ (0 : BitVec 56))
end

