-- ==== Sys2Proof/Laws/State.lean ====
section
/-! SUPPORT. One lemma per field per update of the state, each true by unfolding. -/
namespace Sys2Proof.Machine

section setPresence
variable (s : State) (b : Bool)
@[simp] theorem State.setPresence_presence : (s.setPresence b).presence = b := rfl
@[simp] theorem State.setPresence_seq : (s.setPresence b).seq = s.seq := rfl
@[simp] theorem State.setPresence_grant : (s.setPresence b).grant = s.grant := rfl
@[simp] theorem State.setPresence_latch : (s.setPresence b).latch = s.latch := rfl
@[simp] theorem State.setPresence_ports : (s.setPresence b).ports = s.ports := rfl
@[simp] theorem State.setPresence_bus : (s.setPresence b).bus = s.bus := rfl
@[simp] theorem State.setPresence_trace : (s.setPresence b).trace = s.trace := rfl
@[simp] theorem State.setPresence_env : (s.setPresence b).env = s.env := rfl
@[simp] theorem State.setPresence_agenda : (s.setPresence b).agenda = s.agenda := rfl
@[simp] theorem State.setPresence_choices : (s.setPresence b).choices = s.choices := rfl
@[simp] theorem State.setPresence_draws : (s.setPresence b).draws = s.draws := rfl
@[simp] theorem State.setPresence_years : (s.setPresence b).years = s.years := rfl
end setPresence

section setLatch
variable (s : State) (l : Latches)
@[simp] theorem State.setLatch_presence : (s.setLatch l).presence = s.presence := rfl
@[simp] theorem State.setLatch_seq : (s.setLatch l).seq = s.seq := rfl
@[simp] theorem State.setLatch_grant : (s.setLatch l).grant = s.grant := rfl
@[simp] theorem State.setLatch_latch : (s.setLatch l).latch = l := rfl
@[simp] theorem State.setLatch_ports : (s.setLatch l).ports = s.ports := rfl
@[simp] theorem State.setLatch_bus : (s.setLatch l).bus = s.bus := rfl
@[simp] theorem State.setLatch_trace : (s.setLatch l).trace = s.trace := rfl
@[simp] theorem State.setLatch_env : (s.setLatch l).env = s.env := rfl
@[simp] theorem State.setLatch_agenda : (s.setLatch l).agenda = s.agenda := rfl
@[simp] theorem State.setLatch_choices : (s.setLatch l).choices = s.choices := rfl
@[simp] theorem State.setLatch_draws : (s.setLatch l).draws = s.draws := rfl
@[simp] theorem State.setLatch_years : (s.setLatch l).years = s.years := rfl
end setLatch

section setSeq
variable (s : State) (q : Seq)
@[simp] theorem State.setSeq_presence : (s.setSeq q).presence = s.presence := rfl
@[simp] theorem State.setSeq_seq : (s.setSeq q).seq = q := rfl
@[simp] theorem State.setSeq_grant : (s.setSeq q).grant = s.grant := rfl
@[simp] theorem State.setSeq_latch : (s.setSeq q).latch = s.latch := rfl
@[simp] theorem State.setSeq_ports : (s.setSeq q).ports = s.ports := rfl
@[simp] theorem State.setSeq_bus : (s.setSeq q).bus = s.bus := rfl
@[simp] theorem State.setSeq_trace : (s.setSeq q).trace = s.trace := rfl
@[simp] theorem State.setSeq_env : (s.setSeq q).env = s.env := rfl
@[simp] theorem State.setSeq_agenda : (s.setSeq q).agenda = s.agenda := rfl
@[simp] theorem State.setSeq_choices : (s.setSeq q).choices = s.choices := rfl
@[simp] theorem State.setSeq_draws : (s.setSeq q).draws = s.draws := rfl
@[simp] theorem State.setSeq_years : (s.setSeq q).years = s.years := rfl
end setSeq

section advance
variable (s : State)
@[simp] theorem State.advance_presence : s.advance.presence = s.presence := rfl
@[simp] theorem State.advance_seq : s.advance.seq = s.seq.next := rfl
@[simp] theorem State.advance_grant : s.advance.grant = s.grant := rfl
@[simp] theorem State.advance_latch : s.advance.latch = s.latch := rfl
@[simp] theorem State.advance_ports : s.advance.ports = s.ports := rfl
@[simp] theorem State.advance_bus : s.advance.bus = s.bus := rfl
@[simp] theorem State.advance_trace : s.advance.trace = s.trace := rfl
@[simp] theorem State.advance_env : s.advance.env = s.env := rfl
@[simp] theorem State.advance_agenda : s.advance.agenda = s.agenda := rfl
@[simp] theorem State.advance_choices : s.advance.choices = s.choices := rfl
@[simp] theorem State.advance_draws : s.advance.draws = s.draws := rfl
@[simp] theorem State.advance_years : s.advance.years = s.years := rfl
end advance

section setSt
variable (s : State) (v : Byte)
@[simp] theorem State.setSt_presence : (s.setSt v).presence = s.presence := rfl
@[simp] theorem State.setSt_seq : (s.setSt v).seq = s.seq := rfl
@[simp] theorem State.setSt_grant : (s.setSt v).grant = s.grant := rfl
@[simp] theorem State.setSt_latch : (s.setSt v).latch = { s.latch with st := v } := rfl
@[simp] theorem State.setSt_ports : (s.setSt v).ports = s.ports := rfl
@[simp] theorem State.setSt_bus : (s.setSt v).bus = s.bus := rfl
@[simp] theorem State.setSt_trace : (s.setSt v).trace = s.trace := rfl
@[simp] theorem State.setSt_env : (s.setSt v).env = s.env := rfl
@[simp] theorem State.setSt_agenda : (s.setSt v).agenda = s.agenda := rfl
@[simp] theorem State.setSt_choices : (s.setSt v).choices = s.choices := rfl
@[simp] theorem State.setSt_draws : (s.setSt v).draws = s.draws := rfl
@[simp] theorem State.setSt_years : (s.setSt v).years = s.years := rfl
end setSt

section setCnt
variable (s : State) (v : Byte)
@[simp] theorem State.setCnt_presence : (s.setCnt v).presence = s.presence := rfl
@[simp] theorem State.setCnt_seq : (s.setCnt v).seq = s.seq := rfl
@[simp] theorem State.setCnt_grant : (s.setCnt v).grant = s.grant := rfl
@[simp] theorem State.setCnt_latch : (s.setCnt v).latch = { s.latch with cnt := v } := rfl
@[simp] theorem State.setCnt_ports : (s.setCnt v).ports = s.ports := rfl
@[simp] theorem State.setCnt_bus : (s.setCnt v).bus = s.bus := rfl
@[simp] theorem State.setCnt_trace : (s.setCnt v).trace = s.trace := rfl
@[simp] theorem State.setCnt_env : (s.setCnt v).env = s.env := rfl
@[simp] theorem State.setCnt_agenda : (s.setCnt v).agenda = s.agenda := rfl
@[simp] theorem State.setCnt_choices : (s.setCnt v).choices = s.choices := rfl
@[simp] theorem State.setCnt_draws : (s.setCnt v).draws = s.draws := rfl
@[simp] theorem State.setCnt_years : (s.setCnt v).years = s.years := rfl
end setCnt

section setByte
variable (s : State) (k : Nat) (v : Byte)
@[simp] theorem State.setByte_presence : (s.setByte k v).presence = s.presence := rfl
@[simp] theorem State.setByte_seq : (s.setByte k v).seq = s.seq := rfl
@[simp] theorem State.setByte_grant : (s.setByte k v).grant = s.grant := rfl
@[simp] theorem State.setByte_latch : (s.setByte k v).latch = { s.latch with raw := s.latch.raw.setByte k v } := rfl
@[simp] theorem State.setByte_ports : (s.setByte k v).ports = s.ports := rfl
@[simp] theorem State.setByte_bus : (s.setByte k v).bus = s.bus := rfl
@[simp] theorem State.setByte_trace : (s.setByte k v).trace = s.trace := rfl
@[simp] theorem State.setByte_env : (s.setByte k v).env = s.env := rfl
@[simp] theorem State.setByte_agenda : (s.setByte k v).agenda = s.agenda := rfl
@[simp] theorem State.setByte_choices : (s.setByte k v).choices = s.choices := rfl
@[simp] theorem State.setByte_draws : (s.setByte k v).draws = s.draws := rfl
@[simp] theorem State.setByte_years : (s.setByte k v).years = s.years := rfl
end setByte

section setTf
variable (s : State) (tf : TimeFields)
@[simp] theorem State.setTf_presence : (s.setTf tf).presence = s.presence := rfl
@[simp] theorem State.setTf_seq : (s.setTf tf).seq = s.seq := rfl
@[simp] theorem State.setTf_grant : (s.setTf tf).grant = s.grant := rfl
@[simp] theorem State.setTf_latch : (s.setTf tf).latch = { s.latch with tf := tf } := rfl
@[simp] theorem State.setTf_ports : (s.setTf tf).ports = s.ports := rfl
@[simp] theorem State.setTf_bus : (s.setTf tf).bus = s.bus := rfl
@[simp] theorem State.setTf_trace : (s.setTf tf).trace = s.trace := rfl
@[simp] theorem State.setTf_env : (s.setTf tf).env = s.env := rfl
@[simp] theorem State.setTf_agenda : (s.setTf tf).agenda = s.agenda := rfl
@[simp] theorem State.setTf_choices : (s.setTf tf).choices = s.choices := rfl
@[simp] theorem State.setTf_draws : (s.setTf tf).draws = s.draws := rfl
@[simp] theorem State.setTf_years : (s.setTf tf).years = s.years := rfl
end setTf

section setCal
variable (s : State) (v : Byte)
@[simp] theorem State.setCal_presence : (s.setCal v).presence = s.presence := rfl
@[simp] theorem State.setCal_seq : (s.setCal v).seq = s.seq := rfl
@[simp] theorem State.setCal_grant : (s.setCal v).grant = s.grant := rfl
@[simp] theorem State.setCal_latch : (s.setCal v).latch = { s.latch with cal := v } := rfl
@[simp] theorem State.setCal_ports : (s.setCal v).ports = s.ports := rfl
@[simp] theorem State.setCal_bus : (s.setCal v).bus = s.bus := rfl
@[simp] theorem State.setCal_trace : (s.setCal v).trace = s.trace := rfl
@[simp] theorem State.setCal_env : (s.setCal v).env = s.env := rfl
@[simp] theorem State.setCal_agenda : (s.setCal v).agenda = s.agenda := rfl
@[simp] theorem State.setCal_choices : (s.setCal v).choices = s.choices := rfl
@[simp] theorem State.setCal_draws : (s.setCal v).draws = s.draws := rfl
@[simp] theorem State.setCal_years : (s.setCal v).years = s.years := rfl
end setCal

section conclude
variable (s : State) (c : Completion)
@[simp] theorem State.conclude_presence : (s.conclude c).presence = s.presence := rfl
@[simp] theorem State.conclude_seq : (s.conclude c).seq = s.seq := rfl
@[simp] theorem State.conclude_grant : (s.conclude c).grant = s.grant := rfl
@[simp] theorem State.conclude_latch : (s.conclude c).latch = { s.latch with due := some c } := rfl
@[simp] theorem State.conclude_ports : (s.conclude c).ports = s.ports := rfl
@[simp] theorem State.conclude_bus : (s.conclude c).bus = s.bus := rfl
@[simp] theorem State.conclude_trace : (s.conclude c).trace = s.trace := rfl
@[simp] theorem State.conclude_env : (s.conclude c).env = s.env := rfl
@[simp] theorem State.conclude_agenda : (s.conclude c).agenda = s.agenda := rfl
@[simp] theorem State.conclude_choices : (s.conclude c).choices = s.choices := rfl
@[simp] theorem State.conclude_draws : (s.conclude c).draws = s.draws := rfl
@[simp] theorem State.conclude_years : (s.conclude c).years = s.years := rfl
end conclude

section raise
variable (s : State) (kind : ErrorKind) (q : Option Payload)
@[simp] theorem State.raise_presence : (s.raise kind q).presence = s.presence := rfl
@[simp] theorem State.raise_seq : (s.raise kind q).seq = s.seq := rfl
@[simp] theorem State.raise_grant : (s.raise kind q).grant = s.grant := rfl
@[simp] theorem State.raise_latch : (s.raise kind q).latch = { s.latch with due := some (answerFail kind q) } := rfl
@[simp] theorem State.raise_ports : (s.raise kind q).ports = s.ports := rfl
@[simp] theorem State.raise_bus : (s.raise kind q).bus = s.bus := rfl
@[simp] theorem State.raise_trace : (s.raise kind q).trace = s.trace := rfl
@[simp] theorem State.raise_env : (s.raise kind q).env = s.env := rfl
@[simp] theorem State.raise_agenda : (s.raise kind q).agenda = s.agenda := rfl
@[simp] theorem State.raise_choices : (s.raise kind q).choices = s.choices := rfl
@[simp] theorem State.raise_draws : (s.raise kind q).draws = s.draws := rfl
@[simp] theorem State.raise_years : (s.raise kind q).years = s.years := rfl
end raise

section start
variable (s : State) (op : Op)
@[simp] theorem State.start_presence : (s.start op).presence = s.presence := rfl
@[simp] theorem State.start_seq : (s.start op).seq = .busy op 1 := rfl
@[simp] theorem State.start_grant : (s.start op).grant = s.grant := rfl
@[simp] theorem State.start_latch : (s.start op).latch = { s.latch with due := none } := rfl
@[simp] theorem State.start_ports : (s.start op).ports = s.ports := rfl
@[simp] theorem State.start_bus : (s.start op).bus = s.bus := rfl
@[simp] theorem State.start_trace : (s.start op).trace = s.trace := rfl
@[simp] theorem State.start_env : (s.start op).env = s.env := rfl
@[simp] theorem State.start_agenda : (s.start op).agenda = s.agenda := rfl
@[simp] theorem State.start_choices : (s.start op).choices = s.choices := rfl
@[simp] theorem State.start_draws : (s.start op).draws = s.draws := rfl
@[simp] theorem State.start_years : (s.start op).years = s.years := rfl
end start

section done
variable (s : State) (c : Completion)
@[simp] theorem State.done_presence : (s.done c).presence = s.presence := rfl
@[simp] theorem State.done_seq : (s.done c).seq = .idle := rfl
@[simp] theorem State.done_grant : (s.done c).grant = none := rfl
@[simp] theorem State.done_latch : (s.done c).latch = Latches.reset := rfl
@[simp] theorem State.done_ports : (s.done c).ports = deliver s.grant (responseWord (opField s.latch.cmd) c.err (c.payload s.draws)) s.ports := rfl
@[simp] theorem State.done_bus : (s.done c).bus = none := rfl
@[simp] theorem State.done_trace : (s.done c).trace = s.trace := rfl
@[simp] theorem State.done_env : (s.done c).env = s.env := rfl
@[simp] theorem State.done_agenda : (s.done c).agenda = s.agenda := rfl
@[simp] theorem State.done_choices : (s.done c).choices = s.choices := rfl
@[simp] theorem State.done_draws : (s.done c).draws = s.draws + c.drawn := rfl
@[simp] theorem State.done_years : (s.done c).years = s.years := rfl
end done

section takeResponses
variable (s : State)
@[simp] theorem State.takeResponses_presence : s.takeResponses.presence = s.presence := rfl
@[simp] theorem State.takeResponses_seq : s.takeResponses.seq = s.seq := rfl
@[simp] theorem State.takeResponses_grant : s.takeResponses.grant = s.grant := rfl
@[simp] theorem State.takeResponses_latch : s.takeResponses.latch = s.latch := rfl
@[simp] theorem State.takeResponses_ports : s.takeResponses.ports = s.ports.map fun p => { p with rsp := none } := rfl
@[simp] theorem State.takeResponses_bus : s.takeResponses.bus = s.bus := rfl
@[simp] theorem State.takeResponses_trace : s.takeResponses.trace = s.trace := rfl
@[simp] theorem State.takeResponses_env : s.takeResponses.env = s.env := rfl
@[simp] theorem State.takeResponses_agenda : s.takeResponses.agenda = s.agenda := rfl
@[simp] theorem State.takeResponses_choices : s.takeResponses.choices = s.choices := rfl
@[simp] theorem State.takeResponses_draws : s.takeResponses.draws = s.draws := rfl
@[simp] theorem State.takeResponses_years : s.takeResponses.years = s.years := rfl
end takeResponses

section accept
variable (s : State) (r : Nat) (w : Word)
@[simp] theorem State.accept_presence : (s.accept r w).presence = s.presence := rfl
@[simp] theorem State.accept_seq : (s.accept r w).seq = s.seq := rfl
@[simp] theorem State.accept_grant : (s.accept r w).grant = some r := rfl
@[simp] theorem State.accept_latch : (s.accept r w).latch = { Latches.reset with cmd := w } := rfl
@[simp] theorem State.accept_ports : (s.accept r w).ports = s.ports.modify r fun p => { p with cmd := none } := rfl
@[simp] theorem State.accept_bus : (s.accept r w).bus = s.bus := rfl
@[simp] theorem State.accept_trace : (s.accept r w).trace = [] := rfl
@[simp] theorem State.accept_env : (s.accept r w).env = s.env := rfl
@[simp] theorem State.accept_agenda : (s.accept r w).agenda = s.agenda := rfl
@[simp] theorem State.accept_choices : (s.accept r w).choices = s.choices.tail := rfl
@[simp] theorem State.accept_draws : (s.accept r w).draws = s.draws + 1 := rfl
@[simp] theorem State.accept_years : (s.accept r w).years = s.years := rfl
end accept

section rst
variable (s : State)
@[simp] theorem State.rst_presence : s.rst.presence = Config.presenceReset := rfl
@[simp] theorem State.rst_seq : s.rst.seq = .idle := rfl
@[simp] theorem State.rst_grant : s.rst.grant = none := rfl
@[simp] theorem State.rst_latch : s.rst.latch = Latches.reset := rfl
@[simp] theorem State.rst_ports : s.rst.ports = s.ports.map fun p => { p with rsp := none } := rfl
@[simp] theorem State.rst_bus : s.rst.bus = none := rfl
@[simp] theorem State.rst_trace : s.rst.trace = s.trace := rfl
@[simp] theorem State.rst_env : s.rst.env = s.env.afterReset s.seq := rfl
@[simp] theorem State.rst_agenda : s.rst.agenda = s.agenda := rfl
@[simp] theorem State.rst_choices : s.rst.choices = s.choices := rfl
@[simp] theorem State.rst_draws : s.rst.draws = s.draws + (if s.seq = .idle then 0 else 1) := rfl
@[simp] theorem State.rst_years : s.rst.years = s.years := rfl
end rst

section returned
variable (s : State) (c : BusCall) (a : Answer)
@[simp] theorem State.returned_presence : (s.returned c a).presence = s.presence := rfl
@[simp] theorem State.returned_seq : (s.returned c a).seq = s.seq := rfl
@[simp] theorem State.returned_grant : (s.returned c a).grant = s.grant := rfl
@[simp] theorem State.returned_latch : (s.returned c a).latch = s.latch := rfl
@[simp] theorem State.returned_ports : (s.returned c a).ports = s.ports := rfl
@[simp] theorem State.returned_bus : (s.returned c a).bus = none := rfl
@[simp] theorem State.returned_trace : (s.returned c a).trace = s.trace ++ [busEvent c a.ret] := rfl
@[simp] theorem State.returned_env : (s.returned c a).env = a.env := rfl
@[simp] theorem State.returned_agenda : (s.returned c a).agenda = s.agenda := rfl
@[simp] theorem State.returned_choices : (s.returned c a).choices = s.choices := rfl
@[simp] theorem State.returned_draws : (s.returned c a).draws = a.draws := rfl
@[simp] theorem State.returned_years : (s.returned c a).years = s.years := rfl
end returned

end Sys2Proof.Machine
end

