-- ==== Sys2Proof/Laws/Memory.lean ====
section
/-! SUPPORT. The chip's registers: a read after a write, and every memory operation keeps the canonical
form. -/
namespace Sys2Proof.Machine

@[simp] theorem Memory.read_nil (a : Nat) : Memory.read [] a = Config.unlistedRegister := rfl

theorem Memory.read_of_wfFrom_lt {m : Memory} {lo a : Nat} (h : m.wfFrom lo = true) (ha : a < lo) :
    m.read a = Config.unlistedRegister := by
  induction m generalizing lo with
  | nil => rfl
  | cons c m ih =>
    obtain ⟨b, v⟩ := c
    simp only [Memory.wfFrom, Bool.and_eq_true, decide_eq_true_eq] at h
    have hne : b ≠ a := by omega
    simp only [Memory.read, hne, if_false]
    exact ih h.2 (by omega)

theorem Memory.wfFrom_mono {m : Memory} {lo lo' : Nat} (h : m.wfFrom lo = true) (hle : lo' ≤ lo) :
    m.wfFrom lo' = true := by
  cases m with
  | nil => rfl
  | cons c m =>
    obtain ⟨b, v⟩ := c
    simp only [Memory.wfFrom, Bool.and_eq_true, decide_eq_true_eq] at h ⊢
    exact ⟨⟨⟨by omega, h.1.1.2⟩, h.1.2⟩, h.2⟩

theorem Memory.write_wfFrom {m : Memory} {lo a : Nat} (v : Byte) (h : m.wfFrom lo = true)
    (hlo : lo ≤ a) (ha : a < Config.nChipRegs) : (m.write a v).wfFrom lo = true := by
  induction m generalizing lo with
  | nil =>
    by_cases hv : v = Config.unlistedRegister <;> simp [Memory.write, Memory.wfFrom, hv, hlo, ha]
  | cons c m ih =>
    obtain ⟨b, w⟩ := c
    simp only [Memory.wfFrom, Bool.and_eq_true, decide_eq_true_eq] at h
    obtain ⟨⟨⟨hb, hb8⟩, hw⟩, hm⟩ := h
    simp only [Memory.write]
    split
    · split
      · simp [Memory.wfFrom, *]
      · simp only [Memory.wfFrom, Bool.and_eq_true, decide_eq_true_eq]
        exact ⟨⟨⟨hlo, ha⟩, ‹_›⟩, ⟨⟨by omega, hb8⟩, hw⟩, hm⟩
    · split
      · split
        · exact Memory.wfFrom_mono hm (by omega)
        · subst_vars
          simp [Memory.wfFrom, *]
      · simp only [Memory.wfFrom, Bool.and_eq_true, decide_eq_true_eq]
        exact ⟨⟨⟨hb, hb8⟩, hw⟩, ih hm (by omega)⟩

/-- A write of a register of the chip keeps the canonical form. -/
theorem Memory.write_wf {m : Memory} {a : Nat} (v : Byte) (h : m.wf = true)
    (ha : a < Config.nChipRegs) : (m.write a v).wf = true :=
  Memory.write_wfFrom v h (Nat.zero_le a) ha

/-- A read after a write, in a memory in canonical form. -/
theorem Memory.read_write {m : Memory} {lo : Nat} (a b : Nat) (v : Byte) (h : m.wfFrom lo = true) :
    (m.write a v).read b = if b = a then v else m.read b := by
  induction m generalizing lo with
  | nil =>
    by_cases hv : v = Config.unlistedRegister <;> by_cases hb : b = a <;>
      simp [Memory.write, Memory.read, hv, hb, eq_comm]
    simp [Ne.symm hb]
  | cons c m ih =>
    obtain ⟨d, w⟩ := c
    simp only [Memory.wfFrom, Bool.and_eq_true, decide_eq_true_eq] at h
    simp only [Memory.write]
    by_cases hb : b = a
    · subst hb
      split
      · have : Memory.read m b = Config.unlistedRegister := Memory.read_of_wfFrom_lt h.2 (by omega)
        have hne : d ≠ b := by omega
        split <;> simp [Memory.read, *]
      · split
        · rename_i hbd
          subst hbd
          have : Memory.read m b = Config.unlistedRegister := Memory.read_of_wfFrom_lt h.2 (by omega)
          split <;> simp [Memory.read, *]
        · have hne : d ≠ b := by omega
          simp [Memory.read, hne, ih h.2]
    · have hab : a ≠ b := fun e => hb e.symm
      split
      · split <;> simp [Memory.read, hab]
      · split
        · subst_vars
          split <;> simp [Memory.read, hab]
        · by_cases hd : d = b <;> simp [Memory.read, hd, hb, ih h.2]

theorem Memory.store_wf {m : Memory} (a : Nat) (v : Byte) (h : m.wf = true) : (m.store a v).wf = true := by
  unfold Memory.store
  split
  · exact Memory.write_wf v h ‹_›
  · exact h

theorem Memory.read_store {m : Memory} (a b : Nat) (v : Byte) (h : m.wf = true) :
    (m.store a v).read b = if b = a ∧ a < Config.nChipRegs then v else m.read b := by
  unfold Memory.store
  split
  · simp [Memory.read_write a b v h, *]
  · simp [*]

theorem Memory.storeAll_wf {m : Memory} (a : Nat) (vs : List Byte) (h : m.wf = true) :
    (m.storeAll a vs).wf = true := by
  induction vs generalizing m a with
  | nil => exact h
  | cons v vs ih => exact ih (a + 1) (Memory.store_wf a v h)

/-- A burst of writes leaves every register outside it alone. -/
theorem Memory.read_storeAll_other {m : Memory} (a b : Nat) (vs : List Byte) (h : m.wf = true)
    (hb : b < a ∨ a + vs.length ≤ b) : (m.storeAll a vs).read b = m.read b := by
  induction vs generalizing m a with
  | nil => rfl
  | cons v vs ih =>
    simp only [List.length_cons] at hb
    have hne : b ≠ a := by omega
    rw [Memory.storeAll, ih (a + 1) (Memory.store_wf a v h) (by omega), Memory.read_store a b v h]
    simp [hne]

/-- A burst of writes puts its `j`-th byte into register `a + j` (R68). -/
theorem Memory.read_storeAll {m : Memory} (a j : Nat) (vs : List Byte) (h : m.wf = true)
    (hj : j < vs.length) (h8 : a + j < Config.nChipRegs) :
    (m.storeAll a vs).read (a + j) = vs[j] := by
  induction vs generalizing m a j with
  | nil => simp at hj
  | cons v vs ih =>
    cases j with
    | zero =>
      rw [Memory.storeAll, Memory.read_storeAll_other (a + 1) (a + 0) vs (Memory.store_wf a v h) (by omega),
        Memory.read_store a (a + 0) v h]
      simp only [Nat.add_zero] at h8 ⊢
      simp [h8]
    | succ j =>
      have hj' : j < vs.length := by simpa using hj
      have := ih (m := m.store a v) (a + 1) j (Memory.store_wf a v h) hj' (by omega)
      rw [show a + (j + 1) = a + 1 + j by omega, Memory.storeAll, this]
      simp

theorem Memory.storeTime_wf {m : Memory} (t : RawBytes) (h : m.wf = true) : (m.storeTime t).wf = true :=
  Memory.storeAll_wf _ _ h

@[simp] theorem Memory.burst_length (m : Memory) (a d k : Nat) : (m.burst a d k).length = k := by
  induction k generalizing a d with
  | zero => rfl
  | succ k ih => simp [Memory.burst, ih]

end Sys2Proof.Machine
end

