-- ==== Sys2Proof/Laws/Environment.lean ====
section
/-! SUPPORT. The collaborator and the other agents: what an answer and a move can do, once for each. -/
namespace Sys2Proof.Machine

theorem Chip.apply_wf {c : Chip} (q : List Byte) (h : c.mem.wf = true) : (c.apply q).mem.wf = true := by
  cases q with
  | nil => exact h
  | cons p ds => exact Memory.storeAll_wf _ _ h

theorem Chip.tick_wf {c : Chip} (t : RawBytes) (h : c.mem.wf = true) : (c.tick t).mem.wf = true := by
  unfold Chip.tick
  split
  · exact h
  · exact Memory.storeTime_wf _ h

/-- The reference environment keeps the canonical form of the chip's registers. -/
theorem Env.reference_wf {e : Env} (c : BusCall) (d : Nat) (h : e.chip.mem.wf = true) :
    (e.reference c d).env.chip.mem.wf = true := by
  cases c with
  | busOpen a => exact h
  | busWrite b => exact h
  | busClose =>
    simp only [Env.reference]
    split
    · exact h
    · split
      · exact h
      · exact Chip.apply_wf _ h
    · exact Chip.apply_wf _ h
  | busRequest a k =>
    simp only [Env.reference]
    split <;> exact h
  | busRead =>
    simp only [Env.reference, Env.take]
    split <;> exact h

/-- Every answer keeps the canonical form of the chip's registers. -/
theorem Env.answer_wf {e : Env} {c : BusCall} {d : Nat} {a : Answer} (h : e.chip.mem.wf = true)
    (ha : e.answer c d = some a) : a.env.chip.mem.wf = true := by
  unfold Env.answer at ha
  split at ha
  · cases ha
  · cases ha; exact h
  · split at ha
    · cases ha; exact h
    · cases ha
  · cases ha; exact Env.reference_wf c d h

/-- The reference environment and its variants answer every primitive (R77 to R79). -/
theorem Env.answer_of_reference {e : Env} (h : ∀ l, e.kind ≠ .unspecified l) (c : BusCall) (d : Nat) :
    e.answer c d = some (e.reference c d) := by
  unfold Env.answer
  split <;> first | rfl | exact absurd ‹_› (h _)

/-- One answer at a time, for a primitive that has a result. -/
theorem Env.converse_result {e : Env} {d : Nat} {c : BusCall} {cs : List BusCall} {r : Byte}
    {rs : List Byte} {e' : Env} {d' : Nat} (hc : c.hasResult = true) :
    e.converse d (c :: cs) = some (r :: rs, e', d') ↔
      ∃ a, e.answer c d = some a ∧ a.ret = r ∧ a.env.converse a.draws cs = some (rs, e', d') := by
  simp only [Env.converse, hc, if_true]
  split
  · simp [*]
  · rename_i a ha
    split
    · simp [*]
    · rename_i rs₁ e₁ d₁ h₁
      constructor
      · intro h; cases h; exact ⟨a, ha, rfl, h₁⟩
      · rintro ⟨a', ha', rfl, h'⟩
        rw [ha] at ha'; cases ha'
        rw [h₁] at h'; cases h'; rfl

/-- One answer at a time, for a primitive that has no result. -/
theorem Env.converse_plain {e : Env} {d : Nat} {c : BusCall} {cs : List BusCall}
    {rs : List Byte} {e' : Env} {d' : Nat} (hc : c.hasResult = false) :
    e.converse d (c :: cs) = some (rs, e', d') ↔
      ∃ a, e.answer c d = some a ∧ a.env.converse a.draws cs = some (rs, e', d') := by
  simp only [Env.converse, hc]
  split
  · simp [*]
  · rename_i a ha
    split
    · simp [*]
    · rename_i rs₁ e₁ d₁ h₁
      constructor
      · intro h; cases h; exact ⟨a, ha, h₁⟩
      · rintro ⟨a', ha', h'⟩
        rw [ha] at ha'; cases ha'
        rw [h₁] at h'; cases h'; rfl

@[simp] theorem Env.converse_nil {e : Env} {d : Nat} {rs : List Byte} {e' : Env} {d' : Nat} :
    e.converse d [] = some (rs, e', d') ↔ rs = [] ∧ e' = e ∧ d' = d := by
  simp only [Env.converse, Option.some.injEq, Prod.mk.injEq]
  tauto

/-! ## Moves -/

@[simp] theorem State.otherAgents_quiet {s : State} (h : s.agenda = []) : s.otherAgents = s := by
  simp [State.otherAgents, h]

theorem State.present_frame (s : State) (r : Nat) (w : Word) :
    s.present r w = { s with ports := (s.present r w).ports } := by
  unfold State.present; split <;> rfl

theorem State.busInit_frame (s : State) (k : EnvKind) :
    s.busInit k = { s with env := (s.busInit k).env } := by
  unfold State.busInit; split <;> rfl

/-- What one move of another agent can change: a reset is the reset event; any other move leaves all of the
block but its command ports, and leaves response ports alone too. -/
theorem State.otherMove_cases (s : State) (m : Move) :
    (m = .rst ∧ s.otherMove m = s.rst) ∨
    (m ≠ .rst ∧ s.otherMove m = { s with ports := (s.otherMove m).ports, env := (s.otherMove m).env } ∧
      ((s.otherMove m).ports = s.ports ∨ ∃ r w, m = .present r w)) := by
  cases m with
  | rst => exact .inl ⟨rfl, rfl⟩
  | present r w =>
    refine .inr ⟨by simp, ?_, .inr ⟨r, w, rfl⟩⟩
    simp only [State.otherMove, State.present]; split <;> rfl
  | busInit k =>
    refine .inr ⟨by simp, ?_, .inl ?_⟩ <;> (simp only [State.otherMove, State.busInit]; split <;> rfl)
  | tick t => exact .inr ⟨by simp, rfl, .inl rfl⟩
  | foreignPointer p => exact .inr ⟨by simp, rfl, .inl rfl⟩
  | foreignWrite a v => exact .inr ⟨by simp, rfl, .inl rfl⟩

/-- A property that every move keeps is kept by the other agents, whatever they do before the event. -/
theorem State.otherAgents_keeps (P : State → Prop) (hpop : ∀ s rest, P s → P { s with agenda := rest })
    (hmove : ∀ s m, P s → P (s.otherMove m)) {s : State} (h : P s) : P s.otherAgents := by
  unfold State.otherAgents
  split
  · exact h
  · rename_i ms rest _
    have : ∀ (l : List Move) (t : State), P t → P (l.foldl State.otherMove t) := by
      intro l
      induction l with
      | nil => exact fun t ht => ht
      | cons m l ih => exact fun t ht => ih _ (hmove t m ht)
    exact this _ _ (hpop s rest h)

end Sys2Proof.Machine
end

