-- ==== Sys2Proof/Laws/PerInstr.lean ====
section
/-! SUPPORT. What every encoded command has in its fixed bits (spec/30_encoding.md rules R90, R94), one
lemma per constructor of Instr. -/
namespace Sys2Proof.Laws.FixedBits

/-- `encode i` has the operation code in bits 63:60, 0000 in bits 59:56 and the payload below. -/
def Statement (i : Instr) : Prop :=
  opField (encode i) = i.opcode ∧ rzField (encode i) = 0 ∧ payloadField (encode i) = i.payload

/-- The three fields of a concatenation of three fields. -/
theorem fields_of_word (op : BitVec 4) (p : Payload) :
    opField (op ++ (0 : BitVec 4) ++ p) = op ∧ rzField (op ++ (0 : BitVec 4) ++ p) = 0 ∧
      payloadField (op ++ (0 : BitVec 4) ++ p) = p := by
  refine ⟨?_, ?_, ?_⟩ <;> simp only [opField, rzField, payloadField] <;> ext i hi <;>
    simp only [BitVec.getElem_extractLsb', BitVec.getLsbD_append] <;> grind

theorem get : Statement .get := fields_of_word _ _
theorem set (t : Epoch) : Statement (.set t) := fields_of_word _ _
theorem read : Statement .read := fields_of_word _ _
theorem write (tf : TimeFields) : Statement (.write tf) := fields_of_word _ _
theorem chippresent : Statement .chippresent := fields_of_word _ _
theorem isrunning : Statement .isrunning := fields_of_word _ _
theorem setcal (value : Int) : Statement (.setcal value) := fields_of_word _ _
theorem getcal : Statement .getcal := fields_of_word _ _
theorem dec2bcd (value : Byte) : Statement (.dec2bcd value) := fields_of_word _ _
theorem bcd2dec (bcd : Byte) : Statement (.bcd2dec bcd) := fields_of_word _ _

end Sys2Proof.Laws.FixedBits
end

