-- ==== Sys2Proof/Laws/Sequencer.lean ====
section
/-! SUPPORT. What an event and a run of events can do, once, for every operation. -/
namespace Sys2Proof.Machine

theorem State.callBus_answered {s : State} {c : BusCall} {f : Byte → State → State} {a : Answer}
    (h : s.env.answer c s.draws = some a) : s.callBus c f = .moved (f a.ret (s.returned c a)) := by
  simp [State.callBus, h]

theorem State.callBus_silent {s : State} {c : BusCall} {f : Byte → State → State}
    (h : s.env.answer c s.draws = none) : s.callBus c f = .waiting { s with bus := some c } := by
  simp [State.callBus, h]

/-- A primitive event either returns or leaves the call outstanding. -/
theorem State.callBus_cases (s : State) (c : BusCall) (f : Byte → State → State) :
    (∃ a, s.env.answer c s.draws = some a ∧ s.callBus c f = .moved (f a.ret (s.returned c a))) ∨
    (s.env.answer c s.draws = none ∧ s.callBus c f = .waiting { s with bus := some c }) := by
  cases h : s.env.answer c s.draws with
  | none => exact .inr ⟨rfl, State.callBus_silent h⟩
  | some a => exact .inl ⟨a, rfl, State.callBus_answered h⟩

theorem State.event_due {s : State} {steps : Nat → State → Progress} {c : Completion}
    (h : s.latch.due = some c) : State.event steps s = .moved (s.done c) := by
  simp [State.event, h]

theorem State.event_step {s : State} {steps : Nat → State → Progress} {op : Op} {k : Nat}
    (h : s.latch.due = none) (hq : s.seq = .busy op k) : State.event steps s = steps k s := by
  simp [State.event, h, hq]

/-- A run whose next event is a completion that is due. -/
theorem State.run_due {s : State} {steps : Nat → State → Progress} {n : Nat} {op : Op} {k : Nat}
    {c : Completion} (ha : s.agenda = []) (hq : s.seq = .busy op k) (hd : s.latch.due = some c) :
    State.run steps (n + 1) s = s.done c := by
  simp [State.run, ha, hq, State.event_due hd]

/-- A run whose next event is a step that completes at once. -/
theorem State.run_done {s : State} {steps : Nat → State → Progress} {n : Nat} {op : Op} {k : Nat}
    {c : Completion} (ha : s.agenda = []) (hq : s.seq = .busy op k) (hd : s.latch.due = none)
    (hs : steps k s = .moved (s.done c)) : State.run steps (n + 1) s = s.done c := by
  simp [State.run, ha, hq, State.event_step hd hq, hs]

/-- A run whose next event is a primitive that returns and does not end the operation. -/
theorem State.run_call {s : State} {steps : Nat → State → Progress} {n : Nat} {op op' : Op} {k k' : Nat}
    {c : BusCall} {f : Byte → State → State} {a : Answer} (ha : s.agenda = [])
    (hq : s.seq = .busy op k) (hd : s.latch.due = none) (hs : steps k s = s.callBus c f)
    (hc : s.env.answer c s.draws = some a) (hn : (f a.ret (s.returned c a)).seq = .busy op' k') :
    State.run steps (n + 1) s = State.run steps n (f a.ret (s.returned c a)) := by
  simp [State.run, ha, hq, State.event_step hd hq, hs, State.callBus_answered hc, hn]

/-- What every event of a run keeps, and what the other agents keep, holds at its end. -/
theorem State.run_keeps (P : State → Prop) {steps : Nat → State → Progress}
    (hother : ∀ s, P s → P s.otherAgents)
    (hmoved : ∀ s t, P s → s.seq ≠ .idle → State.event steps s = .moved t → P t)
    (hwait : ∀ s t, P s → s.seq ≠ .idle → State.event steps s = .waiting t → P t)
    (n : Nat) {s : State} (h : P s) : P (State.run steps n s) := by
  induction n generalizing s with
  | zero => exact h
  | succ n ih =>
    have ho := hother s h
    simp only [State.run]
    split
    · exact ho
    · rename_i hq
      have hb : s.otherAgents.seq ≠ .idle := by simp [hq]
      split
      · exact hwait _ _ ho hb ‹_›
      · exact ho
      · have ht := hmoved _ _ ho hb ‹_›
        split
        · exact ht
        · exact ih ht

/-- A listed word is on the command port of its requester. -/
theorem waitingFrom_mem {k : Nat} {ps : List Port} {r : Nat} {w : Word}
    (h : (r, w) ∈ waitingFrom k ps) : k ≤ r ∧ ps[r - k]?.map (·.cmd) = some (some w) := by
  induction ps generalizing k with
  | nil => simp [waitingFrom] at h
  | cons p ps ih =>
    have tail : (r, w) ∈ waitingFrom (k + 1) ps →
        k ≤ r ∧ (p :: ps)[r - k]?.map (·.cmd) = some (some w) := by
      intro h
      obtain ⟨h1, h2⟩ := ih h
      refine ⟨by omega, ?_⟩
      rw [show r - k = r - (k + 1) + 1 by omega]
      exact h2
    simp only [waitingFrom] at h
    split at h
    · exact tail h
    · rename_i v hv
      rcases List.mem_cons.mp h with h | h
      · cases h; exact ⟨le_refl _, by simp [hv]⟩
      · exact tail h

theorem State.policyPick_mem {s : State} {x y : Nat × Word} {xs : List (Nat × Word)}
    (h : s.policyPick x xs = some y) : y ∈ x :: xs := by
  obtain ⟨n, -, rfl⟩ := Option.map_eq_some_iff.mp h
  have hlt : n % (xs.length + 1) < (x :: xs).length := by simpa using Nat.mod_lt n (Nat.succ_pos _)
  rw [List.getD_eq_getElem _ _ hlt]
  exact List.getElem_mem hlt

/-- Whoever the arbiter picks is one of those that wait (R70), and nobody is picked where the coming choice is
to pick nobody (R72). -/
theorem State.arbitrate_mem {s : State} {y : Nat × Word} (h : s.arbitrate = some y) :
    y ∈ waitingFrom 0 s.ports ∧ s.choices.head? ≠ some none := by
  unfold State.arbitrate at h
  split at h <;> rename_i hw hc <;> try cases h
  · rw [hw, hc]
    split at h
    · cases h; exact ⟨List.mem_of_find?_eq_some ‹_›, by simp⟩
    · exact ⟨State.policyPick_mem h, by simp⟩
  · rw [hw, hc]; exact ⟨State.policyPick_mem h, by simp⟩

/-- Passing over everybody uses up the coming choice and the coming draw and changes nothing else. -/
theorem State.pass_frame (s : State) :
    s.pass = { s with choices := s.pass.choices, draws := s.pass.draws } := by
  unfold State.pass; split <;> rfl

/-- With nobody waiting there is nothing to pass over. -/
theorem State.pass_nobody {s : State} (h : waitingFrom 0 s.ports = []) : s.pass = s := by
  simp [State.pass, h]

/-- One step of a run that neither completes nor stops (R32). -/
theorem Seq.next_busy (op : Op) (k : Nat) : Seq.next (.busy op k) = .busy op (k + 1) := rfl

end Sys2Proof.Machine
end

