-- ==== Sys2Proof/Laws/Steps.lean ====
section
/-! SUPPORT. What one step of any operation can do, once for all ten (the inversion lemma of the step
lists), and what one event can do. -/
namespace Sys2Proof.Machine

/-- The operations that write `PRESENCE` (R25). -/
def writesPresence : Op → Bool
  | .get => true
  | .set => true
  | .read => true
  | .write => true
  | .chippresent => false
  | .isrunning => false
  | .setcal => false
  | .getcal => false
  | .dec2bcd => false
  | .bcd2dec => false

/-- What the assignments attached to a primitive may do (R31): they write the flag (in the operations of
R25), the sequencer and the latches, keep the command word and the latched operands, and either go to the
next step or decide a completion and stay. -/
structure Attached (i : Instr) (k : Nat) (f : Byte → State → State) : Prop where
  frame : ∀ b t, f b t =
    { t with presence := (f b t).presence, seq := (f b t).seq, latch := (f b t).latch }
  cmd : ∀ b t, (f b t).latch.cmd = t.latch.cmd
  operands : ∀ b t, operandsLatched i t.latch = true → operandsLatched i (f b t).latch = true
  presence : ∀ b t, writesPresence i.op = false → (f b t).presence = t.presence
  goesOn : ∀ b t, ((f b t).seq = t.seq.next ∧ (f b t).latch.due = t.latch.due ∧ k < lastStep i.op) ∨
    ((f b t).seq = t.seq ∧ (f b t).latch.due ≠ none)

/-- Going on to the next step is such an assignment. -/
theorem Attached.advance {i : Instr} {k : Nat} (hk : k < lastStep i.op) :
    Attached i k fun _ t => t.advance where
  frame _ _ := rfl
  cmd _ _ := rfl
  operands _ _ h := h
  presence _ _ _ := rfl
  goesOn _ _ := .inl ⟨rfl, rfl, hk⟩

/-- What step `k` of a command is: no step of it, its completion, or the primitive its list names, which
depends on the latches and the year mapping alone. -/
inductive StepShape (i : Instr) (k : Nat) (s : State) : Prop where
  | stray (hk : k = 0 ∨ lastStep i.op < k) (h : stepsOf i k s = .stray)
  | completion (hk : k = lastStep i.op) (c : Completion) (h : stepsOf i k s = .moved (s.done c))
  | primitive (c : BusCall) (f : Byte → State → State) (hk : 1 ≤ k ∧ k ≤ lastStep i.op)
      (h : ∀ s', s'.years = s.years → s'.latch = s.latch → stepsOf i k s' = s'.callBus c f)
      (hc : operandsLatched i s.latch = true → (callsOf s.years i)[k - 1]? = some c)
      (hf : Attached i k f)

theorem afterCheckedClose_attached {i : Instr} {k : Nat} (q : Option Payload)
    (hp : writesPresence i.op = true) (hk : k < lastStep i.op) : Attached i k (afterCheckedClose q) where
  frame b t := by unfold afterCheckedClose; split <;> rfl
  cmd b t := by unfold afterCheckedClose; split <;> rfl
  operands b t h := by unfold afterCheckedClose; split <;> (cases i <;> exact h)
  presence b t h := by simp [hp] at h
  goesOn b t := by
    unfold afterCheckedClose; split
    · exact .inl ⟨rfl, rfl, hk⟩
    · exact .inr ⟨rfl, by simp⟩

theorem afterLastClose_attached {i : Instr} {k : Nat} (hp : writesPresence i.op = true) :
    Attached i k afterLastClose where
  frame b t := by unfold afterLastClose; split <;> rfl
  cmd b t := by unfold afterLastClose; split <;> rfl
  operands b t h := by unfold afterLastClose; split <;> (cases i <;> exact h)
  presence b t h := by simp [hp] at h
  goesOn b t := by unfold afterLastClose; split <;> exact .inr ⟨rfl, by simp⟩

theorem afterCalClose_attached {i : Instr} {k : Nat} : Attached i k afterCalClose where
  frame b t := by unfold afterCalClose; split <;> rfl
  cmd b t := by unfold afterCalClose; split <;> rfl
  operands b t h := by unfold afterCalClose; split <;> (cases i <;> exact h)
  presence b t h := by unfold afterCalClose; split <;> rfl
  goesOn b t := by unfold afterCalClose; split <;> exact .inr ⟨rfl, by simp⟩

theorem afterTimeRequest_attached {i : Instr} {k : Nat} (q : Option Payload) (hk : k < lastStep i.op) :
    Attached i k (afterTimeRequest q) where
  frame b t := by unfold afterTimeRequest; split <;> rfl
  cmd b t := by unfold afterTimeRequest; split <;> rfl
  operands b t h := by unfold afterTimeRequest; split <;> (cases i <;> exact h)
  presence b t h := by unfold afterTimeRequest; split <;> rfl
  goesOn b t := by
    unfold afterTimeRequest; split
    · exact .inr ⟨rfl, by simp⟩
    · exact .inl ⟨rfl, rfl, hk⟩

theorem afterTimeByte_attached {i : Instr} {k j : Nat} (hk : k < lastStep i.op) :
    Attached i k (afterTimeByte j) where
  frame _ _ := rfl
  cmd _ _ := rfl
  operands _ _ h := by cases i <;> exact h
  presence _ _ _ := rfl
  goesOn _ _ := .inl ⟨rfl, rfl, hk⟩

theorem afterIgnoredClose_attached {i : Instr} {k : Nat} (hk : k < lastStep i.op) :
    Attached i k afterIgnoredClose where
  frame _ _ := rfl
  cmd _ _ := rfl
  operands _ _ h := by cases i <;> exact h
  presence _ _ _ := rfl
  goesOn _ _ := .inl ⟨rfl, rfl, hk⟩

theorem afterIgnoredRequest_attached {i : Instr} {k : Nat} (hk : k < lastStep i.op) :
    Attached i k afterIgnoredRequest where
  frame _ _ := rfl
  cmd _ _ := rfl
  operands _ _ h := by cases i <;> exact h
  presence _ _ _ := rfl
  goesOn _ _ := .inl ⟨rfl, rfl, hk⟩

theorem afterRegisterByte_attached {i : Instr} {k : Nat} (hk : k < lastStep i.op) :
    Attached i k fun b t => (t.setByte 0 b).advance where
  frame _ _ := rfl
  cmd _ _ := rfl
  operands _ _ h := by cases i <;> exact h
  presence _ _ _ := rfl
  goesOn _ _ := .inl ⟨rfl, rfl, hk⟩

theorem afterLastTimeByte_attached {i : Instr} {k : Nat} (hi : i.op = .read ∨ i.op = .get)
    (hk : k < lastStep i.op) : Attached i k afterLastTimeByte where
  frame _ _ := rfl
  cmd _ _ := rfl
  operands _ _ _ := by cases i <;> simp [Instr.op] at hi <;> rfl
  presence _ _ _ := rfl
  goesOn _ _ := .inl ⟨rfl, rfl, hk⟩

theorem afterCalByte_attached {k : Nat} (hk : k < 6) : Attached .getcal k afterCalByte where
  frame _ _ := rfl
  cmd _ _ := rfl
  operands _ _ _ := rfl
  presence _ _ _ := rfl
  goesOn _ _ := .inl ⟨rfl, rfl, hk⟩

/-- A step number is 0 to 14 or none of any operation. -/
theorem step_number (k : Nat) : k ≤ 14 ∨ ∃ n, k = n + 15 := by
  rcases Nat.lt_or_ge k 15 with h | h
  · exact .inl (by omega)
  · exact .inr ⟨k - 15, by omega⟩

theorem timeRead_shape (i : Instr) (s : State) (k : Nat) (q : Option Payload)
    (fin : Byte → TimeFields → Completion) (hi : i = .read ∨ i = .get)
    (hs : stepsOf i = timeReadSteps q fin) : StepShape i k s := by
  have hop : i.op = .read ∨ i.op = .get := by rcases hi with rfl | rfl <;> simp [Instr.op]
  have hp : writesPresence i.op = true := by rcases hop with h | h <;> rw [h] <;> rfl
  have hl : lastStep i.op = 12 := by rcases hop with h | h <;> rw [h] <;> rfl
  have hcalls : callsOf s.years i = timeReadCalls := by rcases hi with rfl | rfl <;> rfl
  rcases step_number k with hk | ⟨n, rfl⟩
  · interval_cases k
    · exact .stray (.inl rfl) (by rw [hs]; rfl)
    · exact .primitive _ _ (by omega) (fun _ _ _ => by rw [hs]; rfl) (fun _ => by rw [hcalls]; rfl) (.advance (by omega))
    · exact .primitive _ _ (by omega) (fun _ _ _ => by rw [hs]; rfl) (fun _ => by rw [hcalls]; rfl) (.advance (by omega))
    · exact .primitive _ _ (by omega) (fun _ _ _ => by rw [hs]; rfl) (fun _ => by rw [hcalls]; rfl)
        (afterCheckedClose_attached _ hp (by omega))
    · exact .primitive _ _ (by omega) (fun _ _ _ => by rw [hs]; rfl) (fun _ => by rw [hcalls]; rfl)
        (afterTimeRequest_attached _ (by omega))
    all_goals first
      | exact .primitive _ _ (by omega) (fun _ _ _ => by rw [hs]; rfl) (fun _ => by rw [hcalls]; rfl)
          (afterTimeByte_attached (by omega))
      | exact .primitive _ _ (by omega) (fun _ _ _ => by rw [hs]; rfl) (fun _ => by rw [hcalls]; rfl)
          (afterLastTimeByte_attached hop (by omega))
      | exact .completion (by omega) _ (by rw [hs]; rfl)
      | exact .stray (.inr (by omega)) (by rw [hs]; rfl)
  · exact .stray (.inr (by omega)) (by rw [hs]; rfl)

theorem timeWrite_shape (i : Instr) (s : State) (k : Nat) (tf : TimeFields)
    (hi : i = .write tf ∨ ∃ t, i = .set t ∧ tf = Config.breakTime t) : StepShape i k s := by
  have hs : stepsOf i = timeWriteSteps := by rcases hi with rfl | ⟨t, rfl, -⟩ <;> rfl
  have hp : writesPresence i.op = true := by rcases hi with rfl | ⟨t, rfl, -⟩ <;> rfl
  have hl : lastStep i.op = 14 := by rcases hi with rfl | ⟨t, rfl, -⟩ <;> rfl
  have hcalls : operandsLatched i s.latch = true →
      callsOf s.years i = stopCalls s.timeBytes ++ restartCalls s.timeBytes := by
    intro h
    rcases hi with rfl | ⟨t, rfl, rfl⟩ <;>
      (simp only [operandsLatched, decide_eq_true_eq] at h; simp only [callsOf, State.timeBytes, h])
  rcases step_number k with hk | ⟨n, rfl⟩
  · interval_cases k
    · exact .stray (.inl rfl) (by rw [hs]; rfl)
    all_goals first
      | refine .primitive _ _ (by omega) ?_ (fun h => by rw [hcalls h]; rfl) (.advance (by omega))
        intro s' hy hl
        rw [hs]
        first
          | rfl
          | (simp only [timeWriteSteps, State.timeBytes, hy, hl]; rfl)
      | exact .primitive _ _ (by omega) (fun _ _ _ => by rw [hs]; rfl) (fun h => by rw [hcalls h]; rfl)
          (afterCheckedClose_attached _ hp (by omega))
      | exact .primitive _ _ (by omega) (fun _ _ _ => by rw [hs]; rfl) (fun h => by rw [hcalls h]; rfl)
          (afterLastClose_attached hp)
  · exact .stray (.inr (by omega)) (by rw [hs]; rfl)

theorem isrunning_shape (s : State) (k : Nat) : StepShape .isrunning k s := by
  rcases step_number k with hk | ⟨n, rfl⟩
  · interval_cases k
    · exact .stray (.inl rfl) rfl
    all_goals first
      | exact .primitive _ _ (by decide) (fun _ _ _ => rfl) (fun _ => rfl) (.advance (by decide))
      | exact .primitive _ _ (by decide) (fun _ _ _ => rfl) (fun _ => rfl) (afterIgnoredClose_attached (by decide))
      | exact .primitive _ _ (by decide) (fun _ _ _ => rfl) (fun _ => rfl) (afterIgnoredRequest_attached (by decide))
      | exact .primitive _ _ (by decide) (fun _ _ _ => rfl) (fun _ => rfl) (afterRegisterByte_attached (by decide))
      | exact .completion rfl _ rfl
      | exact .stray (.inr (by decide)) rfl
  · exact .stray (.inr (by simp [lastStep, Instr.op])) rfl

theorem getcal_shape (s : State) (k : Nat) : StepShape .getcal k s := by
  rcases step_number k with hk | ⟨n, rfl⟩
  · interval_cases k
    · exact .stray (.inl rfl) rfl
    all_goals first
      | exact .primitive _ _ (by decide) (fun _ _ _ => rfl) (fun _ => rfl) (.advance (by decide))
      | exact .primitive _ _ (by decide) (fun _ _ _ => rfl) (fun _ => rfl) (afterIgnoredClose_attached (by decide))
      | exact .primitive _ _ (by decide) (fun _ _ _ => rfl) (fun _ => rfl) (afterIgnoredRequest_attached (by decide))
      | exact .primitive _ _ (by decide) (fun _ _ _ => rfl) (fun _ => rfl) (afterCalByte_attached (by decide))
      | exact .completion rfl _ rfl
      | exact .stray (.inr (by decide)) rfl
  · exact .stray (.inr (by simp [lastStep, Instr.op])) rfl

theorem setcal_shape (v : Int) (s : State) (k : Nat) : StepShape (.setcal v) k s := by
  have hcalls : operandsLatched (.setcal v) s.latch = true →
      callsOf s.years (.setcal v) = calWriteCalls (calEncode s.latch.cal) := by
    intro h
    simp only [operandsLatched, decide_eq_true_eq] at h
    simp only [callsOf, h]
  rcases step_number k with hk | ⟨n, rfl⟩
  · interval_cases k
    · exact .stray (.inl rfl) rfl
    all_goals first
      | refine .primitive _ _ (by simp [lastStep, Instr.op]) ?_ (fun h => by rw [hcalls h]; rfl)
          (.advance (by simp [lastStep, Instr.op]))
        intro s' _ hl
        first
          | rfl
          | (simp only [stepsOf, setcalSteps, hl]; rfl)
      | exact .primitive _ _ (by simp [lastStep, Instr.op]) (fun _ _ _ => rfl)
          (fun h => by rw [hcalls h]; rfl) afterCalClose_attached
      | exact .stray (.inr (by simp [lastStep, Instr.op])) rfl
  · exact .stray (.inr (by simp [lastStep, Instr.op])) rfl

/-- An operation of one step, its completion. -/
theorem oneStep_shape (i : Instr) (s : State) (k : Nat) (c : State → Completion)
    (hl : lastStep i.op = 1) (h0 : stepsOf i 0 s = .stray) (h1 : stepsOf i 1 s = .moved (s.done (c s)))
    (h2 : ∀ n, stepsOf i (n + 2) s = .stray) : StepShape i k s := by
  match k with
  | 0 => exact .stray (.inl rfl) h0
  | 1 => exact .completion hl.symm _ h1
  | n + 2 => exact .stray (.inr (by omega)) (h2 n)

/-- What step `k` of any command can be. -/
theorem stepShape (i : Instr) (k : Nat) (s : State) : StepShape i k s := by
  cases i with
  | get => exact timeRead_shape _ s k _ _ (.inr rfl) rfl
  | set t => exact timeWrite_shape _ s k (Config.breakTime t) (.inr ⟨t, rfl, rfl⟩)
  | read => exact timeRead_shape _ s k _ _ (.inl rfl) rfl
  | write tf => exact timeWrite_shape _ s k tf (.inl rfl)
  | chippresent =>
    exact oneStep_shape _ s k (fun s => answerOk (boolResult s.presence)) rfl rfl rfl (fun _ => rfl)
  | isrunning => exact isrunning_shape s k
  | setcal v => exact setcal_shape v s k
  | getcal => exact getcal_shape s k
  | dec2bcd v => exact oneStep_shape _ s k (fun _ => answerOk (byteResult (dec2bcd v))) rfl rfl rfl (fun _ => rfl)
  | bcd2dec b => exact oneStep_shape _ s k (fun _ => answerOk (byteResult (bcd2dec b))) rfl rfl rfl (fun _ => rfl)

/-- Every meaning is a run of its step list from its first step. -/
theorem exec_eq_started (i : Instr) (s : State) :
    exec i s = .next (State.run (stepsOf i) Config.maxEvents (s.started i)) := by
  cases i <;> rfl

/-- What the first step of a command starts from. -/
theorem State.started_spec (i : Instr) (s : State) :
    (s.started i).seq = .busy i.op 1 ∧ (s.started i).latch.due = none ∧
      (s.started i).latch.cmd = s.latch.cmd ∧ operandsLatched i (s.started i).latch = true ∧
      s.started i = { s with seq := .busy i.op 1, latch := (s.started i).latch } := by
  cases i <;>
    exact ⟨rfl, rfl, rfl, by simp [State.started, operandsLatched, State.setTf, State.setCal, State.setLatch], rfl⟩

/-- Every meaning is a run of its step list from its first step, the operands latched. -/
theorem exec_eq_run (i : Instr) (s : State) :
    ∃ t, exec i s = .next (State.run (stepsOf i) Config.maxEvents t) ∧ t.seq = .busy i.op 1 ∧
      t.latch.due = none ∧ t.latch.cmd = s.latch.cmd ∧ operandsLatched i t.latch = true ∧
      t = { s with seq := .busy i.op 1, latch := t.latch } :=
  ⟨_, exec_eq_started i s, State.started_spec i s⟩

end Sys2Proof.Machine
end

