-- ==== Sys2Proof/Laws/Step.lean ====
section
/-! SUPPORT. The inversion lemmas: what one event, one move of the other agents, one execution, one run and
one step can do, each said once. -/
namespace Sys2Proof.Machine

/-- What one event of a command in flight can be: its completion, no step at all (never in a state with the
invariant), or the primitive of step `k`, which either does not return or returns with its assignments. -/
theorem event_cases (i : Instr) (s : State) (h : s.seq ≠ .idle) :
    (∃ c, State.event (stepsOf i) s = .moved (s.done c)) ∨
    (State.event (stepsOf i) s = .stray ∧ s.latch.due = none ∧
      ∃ op k, s.seq = .busy op k ∧ (k = 0 ∨ lastStep i.op < k)) ∨
    (∃ op k c f, s.seq = .busy op k ∧ s.latch.due = none ∧ 1 ≤ k ∧ k ≤ lastStep i.op ∧ Attached i k f ∧
      (operandsLatched i s.latch = true → (callsOf s.years i)[k - 1]? = some c) ∧
      ((s.env.answer c s.draws = none ∧ State.event (stepsOf i) s = .waiting { s with bus := some c }) ∨
       ∃ a, s.env.answer c s.draws = some a ∧
        State.event (stepsOf i) s = .moved (f a.ret (s.returned c a)))) := by
  cases hd : s.latch.due with
  | some c => exact .inl ⟨c, State.event_due hd⟩
  | none =>
    cases hq : s.seq with
    | idle => exact absurd hq h
    | busy op k =>
      rw [State.event_step hd hq]
      rcases stepShape i k s with ⟨hk, hs⟩ | ⟨hk, c, hs⟩ | ⟨c, f, hk, hs, hc, hf⟩
      · exact .inr (.inl ⟨hs, rfl, op, k, rfl, hk⟩)
      · exact .inl ⟨c, hs⟩
      · refine .inr (.inr ⟨op, k, c, f, rfl, rfl, hk.1, hk.2, hf, hc, ?_⟩)
        rcases State.callBus_cases s c f with ⟨a, ha, hb⟩ | ⟨ha, hb⟩
        · exact .inr ⟨a, ha, (hs s rfl rfl).trans hb⟩
        · exact .inl ⟨ha, by rw [hs s rfl rfl, hb, ← hq]⟩

/-- An event that waits at a primitive waits there again when only the ports and the bus lines differ. -/
theorem event_waiting_again {i : Instr} {s s' : State} {c : BusCall} (hq : s.seq ≠ .idle)
    (h : State.event (stepsOf i) s = .waiting { s with bus := some c })
    (h1 : s'.seq = s.seq) (h2 : s'.latch = s.latch) (h3 : s'.years = s.years) (h4 : s'.env = s.env)
    (h5 : s'.draws = s.draws) : State.event (stepsOf i) s' = .waiting { s' with bus := some c } := by
  cases hd : s.latch.due with
  | some c => rw [State.event_due hd] at h; cases h
  | none =>
    cases hb : s.seq with
    | idle => exact absurd hb hq
    | busy op k =>
      rw [State.event_step hd hb] at h
      rw [State.event_step (h2 ▸ hd) (h1.trans hb)]
      rcases stepShape i k s with ⟨-, hs⟩ | ⟨-, d, hs⟩ | ⟨d, f, -, hs, -, -⟩
      · rw [hs] at h; cases h
      · rw [hs] at h; cases h
      · rw [hs s rfl rfl] at h
        rw [hs s' h3 h2]
        rcases State.callBus_cases s d f with ⟨a, -, hw⟩ | ⟨ha, hw⟩
        · rw [hw] at h; cases h
        · rw [hw] at h
          have hdc : d = c := by
            have := congrArg (fun p : Progress => match p with | .waiting t => t.bus | _ => none) h
            exact Option.some.inj this
          rw [State.callBus_silent (by rw [h4, h5]; exact ha), hdc]

/-- An execution that gives a next state is a run of the step list from step 1, the operands latched. -/
theorem exec_run {i : Instr} {s t : State} (h : exec i s = .next t) :
    ∃ t₀, t = State.run (stepsOf i) Config.maxEvents t₀ ∧ t₀.seq = .busy i.op 1 ∧ t₀.latch.due = none ∧
      t₀.latch.cmd = s.latch.cmd ∧ operandsLatched i t₀.latch = true ∧
      t₀ = { s with seq := .busy i.op 1, latch := t₀.latch } := by
  obtain ⟨t₀, h0, h1, h2, h3, h4, h5⟩ := exec_eq_run i s
  rw [h0] at h
  refine ⟨t₀, ?_, h1, h2, h3, h4, h5⟩
  cases h; rfl

/-- What a step that gives a next state did: it waited, it answered an illegal word, it executed the
accepted command, or it took up the command in flight. -/
theorem step_cases {s t : State} (h : step s = .next t) :
    let u := s.takeResponses.otherAgents
    (u.seq = .idle ∧ u.arbitrate = none ∧ t = u.pass) ∨
    (u.seq = .idle ∧ ∃ r w, u.arbitrate = some (r, w) ∧
      ((∃ e, decode w = .error e ∧ t = (u.accept r w).answerIllegal) ∨
        ∃ i, decode w = .ok i ∧ exec i (u.accept r w) = .next t)) ∨
    (∃ i k, u.seq = .busy i.op k ∧ decode u.latch.cmd = .ok i ∧
      ((State.event (stepsOf i) u = .waiting t ∧ s.agenda ≠ []) ∨
        ∃ v, State.event (stepsOf i) u = .moved v ∧
          t = if v.seq = .idle then v else State.run (stepsOf i) Config.maxEvents v)) := by
  intro u
  unfold step at h
  split at h
  · rename_i hq
    unfold State.accepted at h
    split at h
    · cases h; exact .inl ⟨hq, ‹_›, rfl⟩
    · split at h
      · cases h; exact .inr (.inl ⟨hq, _, _, ‹_›, .inl ⟨_, ‹_›, rfl⟩⟩)
      · exact .inr (.inl ⟨hq, _, _, ‹_›, .inr ⟨_, ‹_›, h⟩⟩)
  · rename_i op k hq
    unfold State.resume at h
    split at h
    · cases h
    · rename_i i hi
      rw [hq] at h
      dsimp only at h
      split at h
      · rename_i hop
        subst hop
        split at h
        · cases h
        · rename_i v hv
          split at h
          · cases h
          · cases h
            exact .inr (.inr ⟨i, k, hq, hi, .inl ⟨hv, by simpa using ‹¬ s.agenda.isEmpty = true›⟩⟩)
        · cases h
          exact .inr (.inr ⟨i, k, hq, hi, .inr ⟨_, ‹_›, rfl⟩⟩)
      · cases h

@[simp] theorem deliver_length (g : Option Nat) (w : Word) (ports : List Port) :
    (deliver g w ports).length = ports.length := by
  unfold deliver; split <;> simp

/-- A delivered response changes no command port (R33). -/
@[simp] theorem deliver_cmd (g : Option Nat) (w : Word) (ports : List Port) (r : Nat) :
    (deliver g w ports)[r]?.map (·.cmd) = ports[r]?.map (·.cmd) := by
  unfold deliver
  split
  · rfl
  · rename_i q
    simp only [List.getElem?_modify]
    by_cases hq : q = r
    · simp [hq]; rfl
    · simp [hq]

/-- Moves after a reset leave the block reset. -/
theorem foldl_otherMove_reset (ms : List Move) (s : State)
    (h : s.seq = .idle ∧ s.grant = none ∧ s.latch = Latches.reset ∧ s.bus = none) :
    (ms.foldl State.otherMove s).seq = .idle ∧ (ms.foldl State.otherMove s).grant = none ∧
      (ms.foldl State.otherMove s).latch = Latches.reset ∧ (ms.foldl State.otherMove s).bus = none := by
  induction ms generalizing s with
  | nil => exact h
  | cons m ms ih =>
    apply ih
    rcases State.otherMove_cases s m with ⟨-, h'⟩ | ⟨-, h', -⟩
    · rw [h']; exact ⟨rfl, rfl, rfl, rfl⟩
    · rw [h']; exact h

/-- What the moves before an event do to the block: either a reset was among them, or they left all of it
but its ports and its environment. -/
theorem foldl_otherMove_cases (ms : List Move) (s : State) :
    (.rst ∈ ms ∧ (ms.foldl State.otherMove s).seq = .idle ∧ (ms.foldl State.otherMove s).grant = none ∧
      (ms.foldl State.otherMove s).latch = Latches.reset ∧ (ms.foldl State.otherMove s).bus = none ∧
      (ms.foldl State.otherMove s).trace = s.trace ∧ (ms.foldl State.otherMove s).years = s.years ∧
      (ms.foldl State.otherMove s).agenda = s.agenda) ∨
    (.rst ∉ ms ∧ ms.foldl State.otherMove s =
      { s with ports := (ms.foldl State.otherMove s).ports, env := (ms.foldl State.otherMove s).env }) := by
  induction ms generalizing s with
  | nil => exact .inr ⟨by simp, rfl⟩
  | cons m ms ih =>
    simp only [List.foldl_cons, List.mem_cons]
    rcases State.otherMove_cases s m with ⟨rfl, h⟩ | ⟨hm, h, -⟩
    · left
      have f := foldl_otherMove_reset ms (s.otherMove .rst) (by rw [h]; exact ⟨rfl, rfl, rfl, rfl⟩)
      refine ⟨.inl rfl, f.1, f.2.1, f.2.2.1, f.2.2.2, ?_⟩
      rcases ih (s.otherMove .rst) with ⟨-, -, -, -, -, e, e', e''⟩ | ⟨-, e⟩
      · rw [e, e', e'', h]; exact ⟨rfl, rfl, rfl⟩
      · rw [e, h]; exact ⟨rfl, rfl, rfl⟩
    · rcases ih (s.otherMove m) with ⟨hr, e1, e2, e3, e4, e5, e6, e7⟩ | ⟨hr, e⟩
      · left
        rw [h] at e5 e6 e7
        exact ⟨.inr hr, e1, e2, e3, e4, by rw [h]; exact e5, by rw [h]; exact e6, by rw [h]; exact e7⟩
      · right
        refine ⟨by simp [Ne.symm hm, hr], ?_⟩
        rw [e, h]

/-- What the other agents do before an event: a reset, or nothing to the block but its ports and its
environment, with one entry of the agenda used up. -/
theorem State.otherAgents_cases (s : State) :
    (s.otherAgents.seq = .idle ∧ s.otherAgents.grant = none ∧ s.otherAgents.latch = Latches.reset ∧
      s.otherAgents.bus = none ∧ s.otherAgents.trace = s.trace ∧ s.otherAgents.years = s.years ∧
      s.otherAgents.agenda = s.agenda.tail ∧ noReset s.agenda = false) ∨
    (s.otherAgents = { s with
      ports := s.otherAgents.ports, env := s.otherAgents.env, agenda := s.agenda.tail }) := by
  unfold State.otherAgents
  split
  · rename_i h; right; cases s; simp_all
  · rename_i ms rest ha
    rcases foldl_otherMove_cases ms { s with agenda := rest } with ⟨hr, e1, e2, e3, e4, e5, e6, e7⟩ | ⟨-, e⟩
    · left
      refine ⟨e1, e2, e3, e4, e5, e6, by rw [e7, ha]; rfl, ?_⟩
      rw [ha]
      simp only [noReset, List.all_cons, Bool.and_eq_false_iff]
      exact .inl (List.all_eq_false.mpr ⟨.rst, hr, by simp⟩)
    · right; rw [e, ha]; rfl

theorem noReset_tail {agenda : List (List Move)} (h : noReset agenda = true) :
    noReset agenda.tail = true := by
  cases agenda with
  | nil => rfl
  | cons ms rest => exact (Bool.and_eq_true _ _ ▸ h : _ ∧ _).2

theorem one_le_lastStep (op : Op) : 1 ≤ lastStep op := by cases op <;> decide

theorem lastStep_le (op : Op) : lastStep op ≤ 14 := by cases op <;> decide

/-- Where a run ends (R32, R34): in IDLE, or at a primitive that did not return. -/
theorem run_end (i : Instr) (n : Nat) : ∀ (s : State) (k : Nat), s.seq = .busy i.op k → 1 ≤ k →
    k ≤ lastStep i.op → (s.latch.due = none → 16 - k ≤ n) → 1 ≤ n →
    (State.run (stepsOf i) n s).seq = .idle ∨
    ∃ u c, u.env.answer c u.draws = none ∧ State.run (stepsOf i) n s = { u with bus := some c } ∧
      State.event (stepsOf i) u = .waiting { u with bus := some c } ∧ u.latch.due = none ∧
      (∃ k', u.seq = .busy i.op k') ∧ u.latch.cmd = s.latch.cmd := by
  have hl := lastStep_le i.op
  induction n with
  | zero => intro s k _ _ _ _ h; omega
  | succ n ih =>
    intro s k hq h1 h2 hd hn
    simp only [State.run]
    rcases s.otherAgents_cases with ⟨a, -⟩ | h
    · rw [a]; exact .inl a
    · have hq' : s.otherAgents.seq = .busy i.op k := by rw [h]; exact hq
      have hb : s.otherAgents.latch = s.latch := by rw [h]
      rcases event_cases i s.otherAgents (by rw [hq']; simp) with
        ⟨c, hc⟩ | ⟨hc, hd, op, k', hk, hk'⟩ | ⟨op, k', c, f, hk, hdue, h1', h2', hf, -, hc⟩
      · rw [hq', hc]; simp
      · rw [hq'] at hk; cases hk; omega
      · rw [hq'] at hk; cases hk
        rcases hc with ⟨ha, hc⟩ | ⟨x, ha, hc⟩
        · rw [hq', hc]; exact .inr ⟨s.otherAgents, c, ha, rfl, hc, hdue, ⟨k, hq'⟩, by rw [hb]⟩
        · rw [hq', hc]
          dsimp only
          split
          · left; assumption
          · have hcm := hf.cmd x.ret (s.otherAgents.returned c x)
            simp only [State.returned_latch, hb] at hcm
            have hfuel := hd (hb ▸ hdue)
            rw [← hcm]
            rcases hf.goesOn x.ret (s.otherAgents.returned c x) with ⟨q1, q2, q3⟩ | ⟨q1, q2⟩
            · exact ih _ (k + 1) (by rw [q1]; simp [hq', Seq.next]) (by omega) (by omega)
                (by intro; omega) (by omega)
            · exact ih _ k (by rw [q1]; simp [hq']) (by omega) (by omega)
                (by intro h; exact absurd h q2) (by omega)

/-- A run goes on from where a shorter one stands in flight with nothing outstanding, and each event of it has
used up one entry of the agenda. -/
theorem run_continue (i : Instr) (n m : Nat) : ∀ (s : State) (k : Nat), s.seq = .busy i.op k → 1 ≤ k →
    k ≤ lastStep i.op → (State.run (stepsOf i) n s).seq ≠ .idle → (State.run (stepsOf i) n s).bus = none →
    State.run (stepsOf i) (n + m) s = State.run (stepsOf i) m (State.run (stepsOf i) n s) ∧
      (State.run (stepsOf i) n s).agenda = s.agenda.drop n := by
  induction n with
  | zero => intro s k _ _ _ _ _; simp [State.run]
  | succ n ih =>
    intro s k hq h1 h2
    rw [show n + 1 + m = n + m + 1 by omega]
    simp only [State.run]
    rcases s.otherAgents_cases with ⟨a, -⟩ | h
    · rw [a]; exact fun hi => absurd a hi
    · have hq' : s.otherAgents.seq = .busy i.op k := by rw [h]; exact hq
      have hag : s.otherAgents.agenda = s.agenda.tail := by rw [h]
      rcases event_cases i s.otherAgents (by rw [hq']; simp) with
        ⟨c, hc⟩ | ⟨hc, hd, op, k', hk, hk'⟩ | ⟨op, k', c, f, hk, hdue, h1', h2', hf, -, hc⟩
      · rw [hq', hc]; intro hi; simp at hi
      · rw [hq'] at hk; cases hk; omega
      · rw [hq'] at hk; cases hk
        rcases hc with ⟨ha, hc⟩ | ⟨x, ha, hc⟩
        · rw [hq', hc]; intro _ hb; simp at hb
        · rw [hq', hc]
          dsimp only
          have hfr := congrArg State.agenda (hf.frame x.ret (s.otherAgents.returned c x))
          have hdrop : s.agenda.drop (n + 1) = (f x.ret (s.otherAgents.returned c x)).agenda.drop n := by
            rw [hfr]
            show s.agenda.drop (n + 1) = s.otherAgents.agenda.drop n
            rw [hag, List.drop_tail]
          split
          · intro hi; exact absurd ‹_› hi
          · rw [hdrop]
            rcases hf.goesOn x.ret (s.otherAgents.returned c x) with ⟨q1, q2, q3⟩ | ⟨q1, q2⟩
            · exact ih _ (k + 1) (by rw [q1]; simp [hq', Seq.next]) (by omega) (by omega)
            · exact ih _ k (by rw [q1]; simp [hq']) (by omega) (by omega)

/-- The reset chip's registers are in canonical form. -/
theorem reset_mem_wf : State.reset.env.chip.mem.wf = true := rfl

end Sys2Proof.Machine
end

