-- ==== Sys2Proof/Machine/Text.lean ====
section
/-! DEFINITION. The textual syntax of spec/30_encoding.md rule R102: one command a line, an optional
requester before it, decimal or 0x hexadecimal operands separated by commas, and the way a response is
written. There are no pseudo-instructions (R103). -/
namespace Sys2Proof.Machine.Text

/-- A blank. -/
def blank (c : Char) : Bool := c == ' '

/-- Blanks removed at both ends. -/
def trim (cs : List Char) : List Char := ((cs.dropWhile blank).reverse.dropWhile blank).reverse

/-- The parts between commas. -/
def atCommas (cs : List Char) : List (List Char) :=
  cs.foldr (fun c acc => if c == ',' then [] :: acc else (c :: acc.headD []) :: acc.tail) [[]]

/-- A digit of the base, in either case. -/
def digit (base : Nat) (c : Char) : Option Nat :=
  let n := if '0' ≤ c ∧ c ≤ '9' then c.toNat - 48 else if 'a' ≤ c ∧ c ≤ 'f' then c.toNat - 87
    else if 'A' ≤ c ∧ c ≤ 'F' then c.toNat - 55 else base
  if n < base then some n else none

/-- Digits of the base, at least one. -/
def digits (base : Nat) (cs : List Char) : Option Nat :=
  if cs = [] then none
  else cs.foldl (fun acc c => acc.bind fun n => (digit base c).map fun d => n * base + d) (some 0)

/-- A decimal or 0x hexadecimal number. -/
def natural : List Char → Option Nat
  | '0' :: 'x' :: cs => digits 16 cs
  | cs => digits 10 cs

/-- A number with an optional minus sign. -/
def number : List Char → Option Int
  | '-' :: cs => (natural cs).map fun n => -(n : Int)
  | cs => (natural cs).map fun n => (n : Int)

/-- An unsigned operand of `w` bits. -/
def unsigned (w : Nat) (v : Int) : Option (BitVec w) :=
  if 0 ≤ v ∧ v < 2 ^ w then some (BitVec.ofInt w v) else none

/-- WRITE's seven operands. -/
def fields (ops : List Int) : Option TimeFields :=
  match ops.mapM (unsigned 8) with
  | some [s, n, h, w, d, m, y] => some ⟨s, n, h, w, d, m, y⟩
  | _ => none

/-- A mnemonic with its operands (R102). -/
def command (mnemonic : String) (ops : List Int) : Option Instr :=
  match mnemonic, ops with
  | "GET", [] => some .get
  | "SET", [t] => (unsigned 32 t).map Instr.set
  | "READ", [] => some .read
  | "WRITE", ops => (fields ops).map Instr.write
  | "CHIPPRESENT", [] => some .chippresent
  | "ISRUNNING", [] => some .isrunning
  | "SETCAL", [v] => if calOperandFits v then some (.setcal v) else none
  | "GETCAL", [] => some .getcal
  | "DEC2BCD", [v] => (unsigned 8 v).map Instr.dec2bcd
  | "BCD2DEC", [v] => (unsigned 8 v).map Instr.bcd2dec
  | _, _ => none

/-- The optional requester `r<k>:` (default 0) and the rest of the line. -/
def requester (cs : List Char) : Option (Nat × List Char) :=
  match cs with
  | 'r' :: rest =>
    if rest.contains ':' then
      (digits 10 (rest.takeWhile (· != ':'))).map fun k => (k, trim ((rest.dropWhile (· != ':')).drop 1))
    else none
  | _ => some (0, cs)

/-- One line: the requester and its command. Text after `;` is a comment. -/
def line (text : String) : Option (Nat × Instr) := do
  let (r, cs) ← requester (trim (text.toList.takeWhile (· != ';')))
  let operands := trim (cs.dropWhile fun c => !blank c)
  let ops ← if operands = [] then some [] else ((atCommas operands).map trim).mapM number
  let i ← command (String.ofList (cs.takeWhile fun c => !blank c)) ops
  pure (r, i)

/-- A record as its seven decimal values. -/
def record (tf : TimeFields) : String :=
  String.intercalate ", " ([tf.second, tf.minute, tf.hour, tf.wday, tf.day, tf.month, tf.year].map
    fun b => b.toNat.repr)

/-- A command as one line (R102). -/
def ofInstr : Instr → String
  | .get => "GET"
  | .set t => "SET " ++ t.toNat.repr
  | .read => "READ"
  | .write tf => "WRITE " ++ record tf
  | .chippresent => "CHIPPRESENT"
  | .isrunning => "ISRUNNING"
  | .setcal v => "SETCAL " ++ (if v < 0 then "-" else "") ++ v.natAbs.repr
  | .getcal => "GETCAL"
  | .dec2bcd v => "DEC2BCD " ++ v.toNat.repr
  | .bcd2dec b => "BCD2DEC " ++ b.toNat.repr

/-- The name of an error kind (R97). -/
def errorName : ErrorKind → String
  | .busUnavailable => "BusUnavailable"
  | .shortRead => "ShortRead"
  | .clockHalted => "ClockHalted"
  | .illegalCommand => "IllegalCommand"

/-- How a response is written: `-> ok` or `-> fail(<ErrorKind>)` (R102). -/
def outcome : Option ErrorKind → String
  | none => "-> ok"
  | some kind => "-> fail(" ++ errorName kind ++ ")"

end Sys2Proof.Machine.Text
end

