-- ==== Sys2Proof/Tests/Slice0.lean ====
section
/-! SUPPORT. Tests. Expected words, bytes and results are those of spec/95_test_vectors.md (cited V<n>, S<n>
or P<n>) or are worked out by hand from the rule cited. After them, one witness for the hypotheses of each
obligation that has hypotheses. -/
namespace Sys2Proof.Tests
open Sys2Proof Sys2Proof.Machine

/-! ## Well-formedness -/

theorem test_wf_setcal_above : (Instr.setcal 128).wf = false := by decide
theorem test_wf_setcal_below : (Instr.setcal (-129)).wf = false := by decide
theorem test_wf_setcal_ends : (Instr.setcal 127).wf = true ∧ (Instr.setcal (-128)).wf = true := by decide
theorem test_range_second : (TimeFields.mk 60 0 0 1 1 1 0).inDeclaredRanges = false := by decide
theorem test_range_minute : (TimeFields.mk 0 60 0 1 1 1 0).inDeclaredRanges = false := by decide
theorem test_range_hour : (TimeFields.mk 0 0 24 1 1 1 0).inDeclaredRanges = false := by decide
theorem test_range_wday : (TimeFields.mk 0 0 0 0 1 1 0).inDeclaredRanges = false ∧
    (TimeFields.mk 0 0 0 8 1 1 0).inDeclaredRanges = false := by decide
theorem test_range_day : (TimeFields.mk 0 0 0 1 0 1 0).inDeclaredRanges = false ∧
    (TimeFields.mk 0 0 0 1 32 1 0).inDeclaredRanges = false := by decide
theorem test_range_month : (TimeFields.mk 0 0 0 1 1 0 0).inDeclaredRanges = false ∧
    (TimeFields.mk 0 0 0 1 1 13 0).inDeclaredRanges = false := by decide
theorem test_range_ends : (TimeFields.mk 59 59 23 7 31 12 255).inDeclaredRanges = true ∧
    (TimeFields.mk 0 0 0 1 1 1 0).inDeclaredRanges = true := by decide
theorem test_range_calibration : calInDeclaredRange 32 = false ∧ calInDeclaredRange (-32) = false ∧
    calInDeclaredRange 31 = true ∧ calInDeclaredRange (-31) = true := by decide

/-! ## Decoding, from words of spec/95_test_vectors.md or laid out by hand from R92 and R94 -/

/-- V90. -/
theorem test_decode_get : decode 0x1000000000000000 = .ok .get := by decide
/-- V95 and V10: `P[55:32]` is ignored. -/
theorem test_decode_set : decode 0x2000000065E11A7E = .ok (.set 1709251198) ∧
    decode 0x20FFFFFF65E11A7E = .ok (.set 1709251198) := by decide
/-- V10: the payload is ignored. -/
theorem test_decode_read : decode 0x3000000000000000 = .ok .read ∧
    decode 0x30FFFFFFFFFFFFFF = .ok .read := by decide
/-- P1 and V49. -/
theorem test_decode_write : decode 0x4036021D05173B3A = .ok (.write ⟨58, 59, 23, 5, 29, 2, 54⟩) ∧
    decode 0x40380B0A0309111E = .ok (.write ⟨30, 17, 9, 3, 10, 11, 56⟩) := by decide
/-- V87. -/
theorem test_decode_chippresent : decode 0x50123456789ABCDE = .ok .chippresent := by decide
/-- V80. -/
theorem test_decode_isrunning : decode 0x6000000000000000 = .ok .isrunning := by decide
/-- V60 and V10. -/
theorem test_decode_setcal : decode 0x7000000000000080 = .ok (.setcal (-128)) ∧
    decode 0x70FFFFFFFFFFFFFB = .ok (.setcal (-5)) := by decide
/-- V70. -/
theorem test_decode_getcal : decode 0x8000000000000000 = .ok .getcal := by decide
/-- V4. -/
theorem test_decode_dec2bcd : decode 0x90FFFFFFFFFFFF3B = .ok (.dec2bcd 59) := by decide
/-- V4. -/
theorem test_decode_bcd2dec : decode 0xA0000000000000FF = .ok (.bcd2dec 255) := by decide
/-- V10. -/
theorem test_decode_illegal_op : decode 0x0000000000000000 = .error .noSuchOperation ∧
    decode 0xB000000000000000 = .error .noSuchOperation ∧
    decode 0xF000000000000000 = .error .noSuchOperation := by decide
/-- V10. -/
theorem test_decode_illegal_rz : decode 0x3100000000000000 = .error .reservedNotZero ∧
    decode 0x5800000000000000 = .error .reservedNotZero ∧
    decode 0xFFFFFFFFFFFFFFFF = .error .reservedNotZero := by decide
/-- V60, V95: words of the encoder. -/
theorem test_encode : encode (.setcal (-33)) = 0x70000000000000DF ∧
    encode (.set 946684800) = 0x20000000386D4380 ∧
    encode (.write ⟨80, 0, 0, 1, 1, 1, 30⟩) = 0x401E010101000050 := by decide
/-- Bits above the table's width are dropped. -/
theorem test_decodeTableWord : decodeTableWord 64 0x7000000000000005 = some (.setcal 5) ∧
    decodeTableWord 64 0xB000000000000000 = none := by decide

/-! ## One step on a small state -/

/-- The eight registers of a chip. -/
def chipOf (bs : List Byte) : Chip := { mem := Memory.storeAll [] 0 bs, ptr := 0 }

/-- The reset block with `PRESENCE = p` in front of a chip with these registers. -/
def bench (kind : EnvKind) (p : Bool) (bs : List Byte) : State :=
  { State.reset with presence := p, env := { kind := kind, chip := chipOf bs, queue := [], buffer := [] } }

/-- The state after a command word. -/
def after (s : State) (w : Word) : Option State :=
  match step (s.withCommand w) with
  | .next t => some t
  | .fault _ => none
  | .refused _ => none

/-- The response of requester 0 and `PRESENCE` after a command word. -/
def answer (s : State) (w : Word) : Option (Option Word × Bool) :=
  (after s w).map fun t => (t.answer0, t.presence)

/-- The registers 0x00 to 0x07 after a command word. -/
def registers (s : State) (w : Word) : Option (List Byte) :=
  (after s w).map fun t => t.env.chip.mem.burst 0 0 8

/-- V4. -/
theorem test_dec2bcd : answer (bench (.unspecified []) false []) 0x90000000000000FF =
    some (some 0x9800000000000095, false) := by decide
/-- V4. -/
theorem test_bcd2dec : answer (bench (.unspecified []) true []) 0xA0000000000000FF =
    some (some 0xA8000000000000A5, true) := by decide
/-- V34: bit 7 of the hours byte is not masked. -/
theorem test_read : answer (bench .healthy false [0x58, 0x59, 0xA3, 0x05, 0x29, 0x02, 0x24])
    0x3000000000000000 = some (some 0x3836021D05673B3A, true) := by decide
/-- V39: ClockHalted, with the record. -/
theorem test_read_halted : answer (bench .healthy false [0xFF, 0xFF, 0xFF, 0xFF, 0xFF, 0xFF, 0xFF])
    0x3000000000000000 = some (some 0x33C3A5A5A57DA555, true) := by decide
/-- V45. -/
theorem test_write : registers (bench .healthy false []) 0x4000010101000000 =
    some [0x00, 0x00, 0x00, 0x01, 0x01, 0x01, 0x66, 0x00] := by decide
/-- V51: the second transaction fails, the chip keeps the stop byte. -/
theorem test_write_second_close :
    answer (bench (.fail2 0) true [0x30, 0x15]) 0x4036021D05173B3A = some (some 0x4100000000000000, false) ∧
    registers (bench (.fail2 0) true [0x30, 0x15]) 0x4036021D05173B3A =
      some [0x80, 0x59, 0x23, 0x05, 0x29, 0x02, 0x24, 0x00] := by decide
/-- V86 and V85. -/
theorem test_chippresent : answer (bench .absent true []) 0x5000000000000000 =
    some (some 0x5800000000000001, true) ∧
    answer (bench .absent false []) 0x5000000000000000 = some (some 0x5800000000000000, false) := by decide
/-- V82 and V83: bit 7 alone. -/
theorem test_isrunning : answer (bench .healthy false [0xD9]) 0x6000000000000000 =
    some (some 0x6800000000000000, false) ∧
    answer (bench .healthy false [0x7F]) 0x6000000000000000 = some (some 0x6800000000000001, false) := by decide
/-- V60: -33 writes 0x01. -/
theorem test_setcal : registers (bench .healthy false [0x30]) 0x70000000000000DF =
    some [0x30, 0x00, 0x00, 0x00, 0x00, 0x00, 0x00, 0x01] := by decide
/-- V60, last line: ENV-ABSENT, `PRESENCE` kept. -/
theorem test_setcal_absent : answer (bench .absent true []) 0x7000000000000005 =
    some (some 0x7100000000000000, true) := by decide
/-- V70: bits 7:6 are ignored, bit 5 clear is negative. -/
theorem test_getcal : answer (bench .healthy false [0, 0, 0, 0, 0, 0, 0, 0xC5]) 0x8000000000000000 =
    some (some 0x88000000000000FB, false) := by decide
/-- V90 with MAKE_TIME left uninterpreted: the record, `ok = 1`, operation 1. -/
theorem test_get : answer (bench .healthy false [0x58, 0x59, 0x23, 0x05, 0x29, 0x02, 0x24])
    0x1000000000000000 =
    some (some (responseWord 1 none ((Config.makeTime ⟨58, 59, 23, 5, 29, 2, 54⟩).setWidth 56)), true) := rfl
/-- V94 and V92: the payload of a failed GET is 0. -/
theorem test_get_fails : answer (bench (.short 5) false []) 0x1000000000000000 =
    some (some 0x1200000000000000, true) ∧
    answer (bench .healthy false [0x80, 0, 0, 7, 1, 1, 0]) 0x1000000000000000 =
      some (some 0x1300000000000000, true) := by decide
/-- V95 and V97. -/
theorem test_set : answer (bench .healthy false []) 0x2000000065E11A7E =
    some (some 0x2800000000000000, true) ∧
    answer (bench .absent true []) 0x2000000065E11A7E = some (some 0x2100000000000000, false) := by decide
/-- V10: an illegal word is answered and changes nothing. -/
theorem test_illegal : answer (bench .healthy true []) 0x3100000000000000 =
    some (some 0x3400000000000000, true) := by decide
/-- S7, P5: a short read issues no read. -/
theorem test_short_read : (after (bench (.short 5) false [0x30]) 0x3000000000000000).map (fun t => t.trace) =
    some [⟨.busOpen 0x68, none⟩, ⟨.busWrite 0, none⟩, ⟨.busClose, some 0⟩, ⟨.busRequest 0x68 7, some 5⟩] := by
  decide

/-- P7: two requesters wait; `r0` presents WRITE, `r1` READ. -/
def twoWait (choice : Nat) : State :=
  { bench .healthy false [0x30, 0x15, 0x08, 0x03, 0x10, 0x11, 0x26, 0x20] with
    ports := [⟨some 0x4036021D05173B3A, none⟩, ⟨some 0x3000000000000000, none⟩], choices := [some choice] }

/-- The responses of all requesters after a step. -/
def responses (s : State) : Option (List (Option Word)) :=
  match step s with
  | .next t => some (t.ports.map (·.rsp))
  | .fault _ => none
  | .refused _ => none

/-- P7, first order. -/
theorem test_arbiter_r0 : responses (twoWait 0) = some [some 0x4800000000000000, none] := by decide
/-- P7, second order. -/
theorem test_arbiter_r1 : responses (twoWait 1) = some [none, some 0x38380B0A03080F1E] := by decide
/-- R72: the arbiter may pick nobody although somebody waits. -/
theorem test_arbiter_holds_off : responses { twoWait 0 with choices := [none, some 0] } = some [none, none] := by
  decide
/-- R78: a READ whose chip ticks after the request answers the bytes sampled at the request; the agenda's fifth
entry is made before READ.5. -/
theorem test_burst_sampled :
    (match exec .read { bench .healthy false [0x58, 0x59, 0x23, 0x05, 0x29, 0x02, 0x24] with
        agenda := [[], [], [], [], [.tick ⟨0, 0, 0, 1, 1, 1, 0⟩]], grant := some 0,
        latch := { Latches.reset with cmd := 0x3000000000000000 } } with
      | .next t => decide (t.answer0 = some 0x3836021D05173B3A) && decide (t.env.chip.mem.read 1 = 0)
      | .fault _ => false
      | .refused _ => false) = true := by decide
/-- R34: a primitive that never returns. -/
theorem test_stuck : (match step ((bench (.unspecified [none]) false []).withCommand 0x3000000000000000) with
    | .next t => decide (t.bus = some (.busOpen 0x68)) &&
      (match step t with
        | .next _ => false
        | .fault f => decide (f = .busNeverReturns)
        | .refused _ => false)
    | .fault _ => false
    | .refused _ => false) = true := by decide
/-- R80: a tick does not set the halt flag, and a halted chip has no tick (R81). -/
theorem test_tick : ((chipOf [0x58]).tick ⟨0xD9, 1, 2, 3, 4, 5, 6⟩).mem.burst 0 0 3 = [0x59, 1, 2] ∧
    (chipOf [0x80]).tick ⟨0xD9, 1, 2, 3, 4, 5, 6⟩ = chipOf [0x80] := by decide

/-! ## The textual syntax (R102) -/

theorem test_text_setcal : Text.line "SETCAL -5" = some (0, .setcal (-5)) := by decide
theorem test_text_write : Text.line "r1: WRITE 58, 59, 23, 5, 29, 2, 54 ; P1" =
    some (1, .write ⟨58, 59, 23, 5, 29, 2, 54⟩) := by decide
theorem test_text_hex : Text.line "BCD2DEC 0x59" = some (0, .bcd2dec 0x59) := by decide
theorem test_text_refused : Text.line "SETCAL 128" = none ∧ Text.line "GET 1" = none := by decide
theorem test_text_out : Text.ofInstr (.setcal (-5)) = "SETCAL -5" ∧
    Text.outcome (some .shortRead) = "-> fail(ShortRead)" := by decide

/-! ## Witnesses: concrete states and operands that meet the hypotheses of each obligation -/

/-- A running chip that answers. -/
def good : State := bench .healthy false [0x58, 0x59, 0x23, 0x05, 0x29, 0x02, 0x24, 0x25]

/-- The probe of READ and GET, and the probe with the request. -/
def probe : List BusCall := [.busOpen 0x68, .busWrite 0x00, .busClose]

theorem wit_DecodeEncodeIsIdentity : (Instr.setcal (-128)).wf = true := by decide
theorem wit_EncodeDecodeClearsIgnoredBits : decode 0x70FFFFFFFFFFFF80 = .ok (.setcal (-128)) := by decide
theorem wit_StepRunsTheAcceptedCommand : (twoWait 1).agenda = [] ∧ (twoWait 1).seq = .idle ∧
    (twoWait 1).takeResponses.arbitrate = some (1, 0x3000000000000000) ∧
    decode 0x3000000000000000 = .ok .read := by decide
theorem wit_AcceptanceGrantsAndLatches : (twoWait 0).arbitrate = some (0, 0x4036021D05173B3A) := by decide
theorem wit_IllegalWordAnswered : ∃ s : State, s.agenda = [] ∧ s.seq = .idle ∧
    s.takeResponses.arbitrate = some (0, 0xB000000000000000) ∧
    decode 0xB000000000000000 = .error .noSuchOperation :=
  ⟨{ good with ports := [⟨some 0xB000000000000000, none⟩], choices := [some 0] }, by decide⟩
theorem wit_IdleBlockWaits : State.reset.agenda = [] ∧ State.reset.seq = .idle ∧
    ∀ p ∈ State.reset.ports, p.cmd = none := by decide
theorem wit_FetchWordRunsNext : decode (BitVec.ofNat 64 (0x15000000000000000 % 2 ^ 64)) = .ok .chippresent := by
  decide

/-- A command that stands at step 4 of READ. -/
def midRead : State :=
  { good with seq := .busy .read 4, grant := some 0, latch := { Latches.reset with cmd := 0x3000000000000000 } }

theorem wit_StepContinuesCommandInFlight : midRead.agenda = [] ∧ midRead.seq = .busy Instr.read.op 4 ∧
    decode midRead.latch.cmd = .ok .read ∧
    ∃ t, State.event (stepsOf .read) midRead.takeResponses = .moved t ∧ t.seq = .busy .read 5 :=
  ⟨rfl, rfl, by decide, _, rfl, rfl⟩
theorem wit_Dec2bcdAnswersTheFormula : good.agenda = [] := rfl
theorem wit_IsrunningAnswersTheHaltBit : (∃ e d, good.env.converse good.draws (registerReadCalls 0x00) =
      some ([0, 1, 0x58], e, d)) ∧
    ∃ e d, (bench .healthy true [0x80]).env.converse 0 (registerReadCalls 0x00) = some ([0, 1, 0x80], e, d) :=
  ⟨⟨_, _, rfl⟩, _, _, rfl⟩
theorem wit_SetcalWritesTheByte :
    (0x05 : Byte) = BitVec.ofNat 8 ((-5 : Int).natAbs % 32 + (if 0 ≤ (-5 : Int) then 32 else 0)) ∧
    (0x20 : Byte) = BitVec.ofNat 8 ((0 : Int).natAbs % 32 + (if 0 ≤ (0 : Int) then 32 else 0)) ∧
    (∃ e d, good.env.converse good.draws (calWriteCalls 0x05) = some ([0], e, d)) ∧
    ∃ e d, (bench .absent true []).env.converse 0 (calWriteCalls 0x20) = some ([2], e, d) :=
  ⟨by decide, by decide, ⟨_, _, rfl⟩, _, _, rfl⟩
theorem wit_GetcalReadsTheByte : (∃ e d, good.env.converse good.draws (registerReadCalls 0x07) =
      some ([0, 1, 0x25], e, d)) ∧
    ∃ e d, (bench .healthy true []).env.converse 0 (registerReadCalls 0x07) = some ([0, 1, 0], e, d) :=
  ⟨⟨_, _, rfl⟩, _, _, rfl⟩
theorem wit_ReadFailsOnTheProbe : ∃ e d, (bench .absent true []).env.converse 0 probe = some ([2], e, d) :=
  ⟨_, _, rfl⟩
theorem wit_ReadFailsOnAShortBurst : (∃ e d, (bench (.short 6) true []).env.converse 0
      (probe ++ [.busRequest 0x68 7]) = some ([0, 6], e, d)) ∧
    ∃ e d, (bench (.short 0) true []).env.converse 0 (probe ++ [.busRequest 0x68 7]) = some ([0, 0], e, d) :=
  ⟨⟨_, _, rfl⟩, _, _, rfl⟩
/-- Both sides of the halt bit, at the least count. -/
theorem wit_ReadDecodesTheBurst : (∃ e d, (bench .healthy true [0x7F]).env.converse 0 timeReadCalls =
      some ([0, 7, 0x7F, 0, 0, 0, 0, 0, 0], e, d)) ∧
    ∃ e d, (bench .healthy true [0x80]).env.converse 0 timeReadCalls =
      some ([0, 7, 0x80, 0, 0, 0, 0, 0, 0], e, d) :=
  ⟨⟨_, _, rfl⟩, _, _, rfl⟩
theorem wit_WriteStopsAtAFailedFirstClose : ∃ e d, (bench .absent true []).env.converse 0
    (stopCalls (recordBytes (.offset 30) ⟨58, 59, 23, 5, 29, 2, 54⟩)) = some ([2], e, d) := ⟨_, _, rfl⟩
theorem wit_WriteIssuesBothTransactions : (∃ e d, good.env.converse 0
      (stopCalls (recordBytes (.offset 30) ⟨58, 59, 23, 5, 29, 2, 54⟩) ++
        restartCalls (recordBytes (.offset 30) ⟨58, 59, 23, 5, 29, 2, 54⟩)) = some ([0, 0], e, d)) ∧
    ∃ e d, (bench (.fail2 0) true []).env.converse 0
      (stopCalls (recordBytes (.offset 30) ⟨58, 59, 23, 5, 29, 2, 54⟩) ++
        restartCalls (recordBytes (.offset 30) ⟨58, 59, 23, 5, 29, 2, 54⟩)) = some ([0, 2], e, d) :=
  ⟨⟨_, _, rfl⟩, _, _, rfl⟩
theorem wit_GetFailsWithZero : (∃ e d, (bench .absent true []).env.converse 0 probe = some ([2], e, d)) ∧
    ∃ e d, (bench (.short 6) true []).env.converse 0 (probe ++ [.busRequest 0x68 7]) = some ([0, 6], e, d) :=
  ⟨⟨_, _, rfl⟩, _, _, rfl⟩
theorem wit_GetConvertsTheRecord : (∃ e d, (bench .healthy true [0x7F]).env.converse 0 timeReadCalls =
      some ([0, 7, 0x7F, 0, 0, 0, 0, 0, 0], e, d)) ∧
    ∃ e d, (bench .healthy true [0x80]).env.converse 0 timeReadCalls =
      some ([0, 7, 0x80, 0, 0, 0, 0, 0, 0], e, d) :=
  ⟨⟨_, _, rfl⟩, _, _, rfl⟩
theorem wit_SetStopsAtAFailedFirstClose : ∃ e d, (bench .absent true []).env.converse 0
    (stopCalls (recordBytes (.offset 30) (Config.breakTime 0))) = some ([2], e, d) := ⟨_, _, rfl⟩
theorem wit_SetIssuesBothTransactions : ∃ e d, good.env.converse 0
    (stopCalls (recordBytes (.offset 30) (Config.breakTime 0)) ++
      restartCalls (recordBytes (.offset 30) (Config.breakTime 0))) = some ([0, 0], e, d) := ⟨_, _, rfl⟩
/-- One command that completes and one that stands at an outstanding primitive. -/
theorem wit_PrimitivesFollowTheStepList : good.trace = [] ∧ good.bus = none ∧
    (∃ t, exec .read good = .next t ∧ t.trace.length = 11) ∧
    ∃ t, exec .read (bench (.unspecified [some 0, none]) true []) = .next t ∧ t.trace.length = 1 ∧
      t.bus = some (.busWrite 0x00) := ⟨rfl, rfl, ⟨_, rfl, rfl⟩, _, rfl, rfl, rfl⟩
theorem wit_DeviceAddressNeverVaries : good.trace = [] ∧ good.bus = none ∧
    (∃ t, exec .getcal good = .next t ∧ t.trace.length = 5) ∧
    ∃ t, exec .read (bench (.unspecified [none]) true []) = .next t ∧ t.bus = some (.busOpen 0x68) :=
  ⟨rfl, rfl, ⟨_, rfl, rfl⟩, _, rfl, rfl⟩

/-- A WRITE after its first transaction, `c` outstanding. -/
def midWrite (c : Option BusCall) : State :=
  { good with
    seq := .busy .write 11
    grant := some 0
    bus := c
    latch := { Latches.reset with cmd := 0x4036021D05173B3A, tf := ⟨58, 59, 23, 5, 29, 2, 54⟩ }
    trace := (stopCalls (recordBytes (.offset 30) ⟨58, 59, 23, 5, 29, 2, 54⟩)).map
      fun c => ⟨c, if c.hasResult then some 0 else none⟩ }

/-- In IDLE, in flight, and with a primitive outstanding. -/
theorem wit_StepKeepsPrimitivesInOrder : good.inv = true ∧ good.ordered ∧ (∃ t, step good = .next t) ∧
    (∀ c, c = none ∨ c = some (.busOpen 0x68) → (midWrite c).inv = true ∧ (midWrite c).ordered ∧
      ∃ t, step (midWrite c) = .next t ∧ t.trace.length = 14) := by
  refine ⟨by decide, ⟨rfl, .get, List.nil_prefix⟩, ⟨_, rfl⟩, ?_⟩
  rintro c (rfl | rfl)
  · exact ⟨by decide, ⟨.write ⟨58, 59, 23, 5, 29, 2, 54⟩, by decide, by decide, nofun⟩, _, rfl, rfl⟩
  · refine ⟨by decide, ⟨.write ⟨58, 59, 23, 5, 29, 2, 54⟩, by decide, by decide, ?_⟩, _, rfl, rfl⟩
    intro c h
    cases h
    rfl
theorem wit_PresenceWrittenOnlyByTransfers : noReset good.agenda = true ∧ ∃ t, exec .getcal good = .next t :=
  ⟨rfl, _, rfl⟩
theorem wit_OperationEndsOrWaits : (∃ t, exec .read good = .next t ∧ t.seq = .idle) ∧
    ∃ t, exec .read (bench (.unspecified [none]) true []) = .next t ∧ t.bus ≠ none :=
  ⟨⟨_, rfl, rfl⟩, _, rfl, by decide⟩
theorem wit_AnsweringCollaboratorCompletes : (∀ l, good.env.kind ≠ .unspecified l) ∧
    noReset good.agenda = true ∧ ({ good with grant := some 0 } : State).grant = some 0 ∧
    0 < good.ports.length := ⟨fun _ h => (nomatch h), rfl, rfl, by decide⟩
theorem wit_NothingOfAFinishedCommandRemains : ∃ t, exec .read good = .next t ∧ t.seq = .idle :=
  ⟨_, rfl, rfl⟩

/-- A READ accepted in front of a collaborator that never answers. -/
def silent : State :=
  { bench (.unspecified [none]) false [] with latch := { Latches.reset with cmd := 0x3000000000000000 } }

theorem wit_UnansweredPrimitiveIsStuck : decode silent.latch.cmd = .ok .read ∧
    ∃ t, exec .read silent = .next t ∧ t.seq ≠ .idle ∧ t.agenda = [] := ⟨by decide, _, rfl, by decide, rfl⟩
theorem wit_WaitingRequestersKeepTheirWords :
    (twoWait 0).ports[1]?.map (·.cmd) = some (some 0x3000000000000000) ∧
    ∃ t, exec .chippresent (twoWait 0) = .next t := ⟨rfl, _, rfl⟩
theorem wit_ResponseOnlyToTheOwner : (∀ p ∈ (twoWait 0).ports, p.rsp = none) ∧
    ∃ t, exec .chippresent { twoWait 0 with grant := some 1 } = .next t ∧
      t.ports[1]?.map (·.rsp) = some (some 0x0800000000000000) := ⟨by decide, _, rfl, by decide⟩
theorem wit_ParametersStayFixed : ∃ t, step (twoWait 1) = .next t ∧ t.ports.length = 2 := ⟨_, rfl, rfl⟩
theorem wit_ArbiterPicksAWaitingRequester : (twoWait 1).arbitrate = some (1, 0x3000000000000000) ∧
    (∀ p ∈ good.ports, p.cmd = none) ∧
    (twoWait 1).ports[1]?.map (·.cmd) = some (some 0x3000000000000000) ∧
    (twoWait 1).choices = some 1 :: [] := by decide
theorem wit_ArbiterAdmitsEveryChoice : (twoWait 0).ports[0]?.map (·.cmd) = some (some 0x4036021D05173B3A) ∧
    (twoWait 0).ports[1]?.map (·.cmd) = some (some 0x3000000000000000) := by decide
theorem wit_ArbiterHoldsOff : (twoWait 0).agenda = [] ∧ (twoWait 0).seq = .idle ∧
    ∃ p ∈ (twoWait 0).ports, p.cmd ≠ none := by decide
/-- A reset before the first event, and one between the two transactions of a WRITE (R181). -/
theorem wit_ResetAbandonsTheCommand : good.bus = none ∧
    (good.started (.write ⟨58, 59, 23, 5, 29, 2, 54⟩)).seq = .busy .write 1 ∧
    ∃ u, u = State.run (stepsOf (.write ⟨58, 59, 23, 5, 29, 2, 54⟩)) 10
        (({ good with agenda := List.replicate 10 [] ++ [.rst] :: [] } : State).started
          (.write ⟨58, 59, 23, 5, 29, 2, 54⟩)) ∧
      u.seq = .busy .write 11 ∧ u.bus = none ∧ u.trace.length = 10 ∧ u.env.chip.mem.read 0 = 0x80 :=
  ⟨rfl, rfl, _, rfl, rfl, rfl, rfl, rfl⟩
theorem wit_StepKeepsTheInvariant : (twoWait 0).inv = true ∧ (∃ t, step (twoWait 0) = .next t) ∧
    midRead.inv = true ∧ ∃ t, step midRead = .next t := ⟨by decide, ⟨_, rfl⟩, by decide, _, rfl⟩
theorem wit_StepNeverStrays : midRead.inv = true ∧ good.inv = true := by decide
/-- At the register next to the ones written. -/
theorem wit_ChipRegisterFrame : good.agenda = [] ∧ good.env.chip.mem.wf = true ∧
    (∃ t, exec (.setcal 5) good = .next t ∧ t.env.chip.mem.read 6 = 0x24 ∧ t.env.chip.mem.read 8 = 0) ∧
    (∃ t, exec (.write ⟨0, 0, 0, 1, 1, 1, 30⟩) good = .next t ∧ t.env.chip.mem.read 7 = 0x25) ∧
    ∃ t, exec (.set 0) good = .next t ∧ t.presence = true :=
  ⟨rfl, by decide, ⟨_, rfl, by decide, by decide⟩, ⟨_, rfl, by decide⟩, _, rfl, rfl⟩
theorem wit_WriteStoresTheRecord : good.agenda = [] ∧ good.env.kind = .healthy ∧
    good.env.chip.mem.wf = true := by decide
/-- The last register, the longest burst and the empty one. -/
theorem wit_HealthyCloseAppliesTheQueue : good.env.kind = .healthy ∧ good.env.chip.mem.wf = true ∧
    (7 : Byte).toNat + [(0x25 : Byte)].length ≤ 8 ∧
    (0 : Byte).toNat + (List.replicate 8 (0x11 : Byte)).length ≤ 8 ∧
    (8 : Byte).toNat + ([] : List Byte).length ≤ 8 := by decide
/-- The longest burst inside the registers, and the shortest. -/
theorem wit_HealthyBurstSamplesTheRegisters : good.env.kind = .healthy ∧
    good.env.chip.ptr + (8 : Byte).toNat ≤ 8 ∧ good.env.chip.ptr + (0 : Byte).toNat ≤ 8 ∧
    ({ good.env with buffer := [0x58] } : Env).buffer = 0x58 :: [] ∧ good.env.buffer = [] := by decide
theorem wit_HaltedChipHasNoStep : ((chipOf [0x80]).mem.read 0).getLsbD 7 = true := by decide
theorem wit_RunningChipTicks : (chipOf [0x7F]).mem.wf = true ∧
    ((chipOf [0x7F]).mem.read 0).getLsbD 7 = false := by decide
theorem wit_OutOfRangeFieldsChangeTheMode :
    (encodeTime (.offset 30) ⟨80, 0, 40, 1, 1, 1, 30⟩).b0.getLsbD 7 = true ∧
    (encodeTime (.offset 30) ⟨99, 0, 79, 1, 1, 1, 30⟩).b2.getLsbD 6 = true ∧
    (TimeFields.mk 59 59 23 7 31 12 30).inDeclaredRanges = true := by decide
theorem wit_WriteThenReadReturnsTheRecord : good.agenda = [] ∧ good.env.kind = .healthy ∧
    good.env.chip.mem.wf = true ∧ (TimeFields.mk 59 59 23 7 31 12 129).inDeclaredRanges = true ∧
    good.years.ofChip (good.years.toChip 129) = 129 ∧ (good.years.toChip 129).toNat ≤ 99 := by decide
/-- Both sides of the boundary between 79 and 80, and the last value (V42, V43). -/
theorem wit_WriteThenIsrunning : (79 : Byte).toNat ≤ 99 ∧ (80 : Byte).toNat ≤ 99 ∧ (99 : Byte).toNat ≤ 99 ∧
    (after good 0x401E01010100004F).bind (fun t => answer t 0x6000000000000000) =
      some (some 0x6800000000000001, true) ∧
    (after good 0x401E010101000050).bind (fun t => answer t 0x6000000000000000) =
      some (some 0x6800000000000000, true) := by decide
theorem wit_CalibrationRoundTrip : (-128 : Int) ≤ -128 ∧ (127 : Int) ≤ 127 ∧
    (after good 0x7000000000000080).bind (fun t => answer t 0x8000000000000000) =
      some (some 0x8800000000000000, false) := by decide
theorem wit_AbsentChipIsReported : (bench .absent true []).agenda = [] ∧
    (bench .absent true []).env.kind = .absent := by decide

end Sys2Proof.Tests
end

section
/-! PROOFS. The parameters of R7 over a step: each thing a step is made of (a move of another agent, an event,
a run of events, an acceptance) keeps the number of ports and the year mapping, so every step does. -/
namespace Sys2Proof.Machine

/-- `t` has the parameters of `s` that stand in the state (R7): NREQ, as the number of ports, and the year
mapping. -/
def State.SameParameters (s t : State) : Prop :=
  t.ports.length = s.ports.length ∧ t.years = s.years

theorem State.SameParameters.refl (s : State) : s.SameParameters s := ⟨rfl, rfl⟩

theorem State.SameParameters.trans {s t u : State} (hst : s.SameParameters t) (htu : t.SameParameters u) :
    s.SameParameters u :=
  ⟨htu.1.trans hst.1, htu.2.trans hst.2⟩

/-- A requester that presents a word uses a port that is there (R70). -/
@[simp] theorem State.present_ports_length (s : State) (r : Nat) (w : Word) :
    (s.present r w).ports.length = s.ports.length := by
  unfold State.present
  split
  · rfl
  · exact List.length_modify ..

theorem State.present_sameParameters (s : State) (r : Nat) (w : Word) :
    s.SameParameters (s.present r w) := by
  rw [State.present_frame]
  exact ⟨State.present_ports_length s r w, rfl⟩

theorem State.busInit_sameParameters (s : State) (k : EnvKind) : s.SameParameters (s.busInit k) := by
  rw [State.busInit_frame]
  exact ⟨rfl, rfl⟩

theorem State.done_sameParameters (s : State) (c : Completion) : s.SameParameters (s.done c) :=
  ⟨deliver_length .., rfl⟩

theorem State.accept_sameParameters (s : State) (r : Nat) (w : Word) : s.SameParameters (s.accept r w) :=
  ⟨List.length_modify .., rfl⟩

theorem State.takeResponses_sameParameters (s : State) : s.SameParameters s.takeResponses :=
  ⟨List.length_map .., rfl⟩

theorem State.pass_sameParameters (s : State) : s.SameParameters s.pass := by
  rw [State.pass_frame]
  exact ⟨rfl, rfl⟩

theorem State.otherMove_sameParameters (s : State) (m : Move) : s.SameParameters (s.otherMove m) := by
  cases m with
  | present r w => exact State.present_sameParameters s r w
  | busInit k => exact State.busInit_sameParameters s k
  | rst => exact ⟨List.length_map .., rfl⟩
  | tick | foreignPointer | foreignWrite => exact ⟨rfl, rfl⟩

theorem State.otherAgents_sameParameters (s : State) : s.SameParameters s.otherAgents :=
  State.otherAgents_keeps s.SameParameters (fun _ _ h => h)
    (fun t m h => h.trans (State.otherMove_sameParameters t m)) (State.SameParameters.refl s)

/-- The assignments attached to a primitive write neither the ports nor the year mapping (R31). -/
theorem Attached.sameParameters {i : Instr} {k : Nat} {f : Byte → State → State} (hf : Attached i k f)
    (b : Byte) (s : State) : s.SameParameters (f b s) := by
  rw [hf.frame]
  exact ⟨rfl, rfl⟩

/-- An event that happens and one that waits at its primitive alike (R31, R34). -/
theorem event_sameParameters {i : Instr} {s t : State} (hq : s.seq ≠ .idle)
    (h : State.event (stepsOf i) s = .moved t ∨ State.event (stepsOf i) s = .waiting t) :
    s.SameParameters t := by
  rcases event_cases i s hq with ⟨c, hc⟩ | ⟨hc, -⟩ | ⟨_, _, c, f, -, -, -, -, hf, -, hc⟩
  · obtain rfl : s.done c = t := by simpa [hc] using h
    exact State.done_sameParameters s c
  · simp [hc] at h
  · rcases hc with ⟨-, hc⟩ | ⟨a, -, hc⟩
    · obtain rfl : { s with bus := some c } = t := by simpa [hc] using h
      exact ⟨rfl, rfl⟩
    · obtain rfl : f a.ret (s.returned c a) = t := by simpa [hc] using h
      exact hf.sameParameters a.ret (s.returned c a)

theorem run_sameParameters (i : Instr) (n : Nat) (s : State) :
    s.SameParameters (State.run (stepsOf i) n s) :=
  State.run_keeps s.SameParameters
    (fun t h => h.trans (State.otherAgents_sameParameters t))
    (fun _ _ h hq he => h.trans (event_sameParameters hq (.inl he)))
    (fun _ _ h hq he => h.trans (event_sameParameters hq (.inr he)))
    n (State.SameParameters.refl s)

theorem exec_sameParameters {i : Instr} {s t : State} (h : exec i s = .next t) : s.SameParameters t := by
  obtain ⟨t₀, rfl, -, -, -, -, ht₀⟩ := exec_run h
  have started : s.SameParameters t₀ := by
    rw [ht₀]
    exact ⟨rfl, rfl⟩
  exact started.trans (run_sameParameters i _ t₀)

theorem step_sameParameters {s t : State} (h : step s = .next t) : s.SameParameters t := by
  have moved : s.SameParameters s.takeResponses.otherAgents :=
    (State.takeResponses_sameParameters s).trans (State.otherAgents_sameParameters _)
  refine moved.trans ?_
  rcases step_cases h with ⟨-, -, rfl⟩ | ⟨-, r, w, -, hacc⟩ | ⟨i, k, hq, -, hev⟩
  · exact State.pass_sameParameters _
  · refine (State.accept_sameParameters _ r w).trans ?_
    rcases hacc with ⟨-, -, rfl⟩ | ⟨i, -, hexec⟩
    · exact State.done_sameParameters _ _
    · exact exec_sameParameters hexec
  · have busy : s.takeResponses.otherAgents.seq ≠ .idle := by simp [hq]
    rcases hev with ⟨hwait, -⟩ | ⟨v, hmoved, rfl⟩
    · exact event_sameParameters busy (.inr hwait)
    · refine (event_sameParameters busy (.inl hmoved)).trans ?_
      split
      · exact State.SameParameters.refl v
      · exact run_sameParameters i _ v

/-- Settles O37: a step is made of moves, an acceptance and events, none of which changes a parameter. -/
theorem parametersStayFixed : Obligations.ParametersStayFixed :=
  fun _ _ h => step_sameParameters h

end Sys2Proof.Machine
end

section
/-! PROOFS. What one event leaves behind, said once for every operation, and the inductions built on it, over a run
and over an execution. -/
namespace Sys2Proof.Machine

/-! ## What the assignments attached to a primitive leave alone (R31) -/

section Attached
variable {i : Instr} {k : Nat} {f : Byte → State → State} (hf : Attached i k f) (b : Byte) (s : State)
include hf
theorem Attached.grant : (f b s).grant = s.grant := by rw [hf.frame]
theorem Attached.ports : (f b s).ports = s.ports := by rw [hf.frame]
theorem Attached.bus : (f b s).bus = s.bus := by rw [hf.frame]
theorem Attached.trace : (f b s).trace = s.trace := by rw [hf.frame]
theorem Attached.env : (f b s).env = s.env := by rw [hf.frame]
theorem Attached.agenda : (f b s).agenda = s.agenda := by rw [hf.frame]
theorem Attached.years : (f b s).years = s.years := by rw [hf.frame]
end Attached

/-! ## What a command starts from (R70) -/

section started
variable (i : Instr) (s : State)
@[simp] theorem State.started_seq : (s.started i).seq = .busy i.op 1 := (State.started_spec i s).1
@[simp] theorem State.started_due : (s.started i).latch.due = none := (State.started_spec i s).2.1
@[simp] theorem State.started_cmd : (s.started i).latch.cmd = s.latch.cmd := (State.started_spec i s).2.2.1
@[simp] theorem State.started_operands : operandsLatched i (s.started i).latch = true :=
  (State.started_spec i s).2.2.2.1
@[simp] theorem State.started_presence : (s.started i).presence = s.presence := by cases i <;> rfl
@[simp] theorem State.started_grant : (s.started i).grant = s.grant := by cases i <;> rfl
@[simp] theorem State.started_ports : (s.started i).ports = s.ports := by cases i <;> rfl
@[simp] theorem State.started_bus : (s.started i).bus = s.bus := by cases i <;> rfl
@[simp] theorem State.started_trace : (s.started i).trace = s.trace := by cases i <;> rfl
@[simp] theorem State.started_env : (s.started i).env = s.env := by cases i <;> rfl
@[simp] theorem State.started_agenda : (s.started i).agenda = s.agenda := by cases i <;> rfl
@[simp] theorem State.started_years : (s.started i).years = s.years := by cases i <;> rfl
end started

/-! ## One event -/

/-- What stands after an event of command `i` that happened or that waits at its primitive (R31, R33, R34): the
command answered, the call outstanding, or the call returned and its assignments made. -/
inductive EventResult (i : Instr) (s t : State) : Prop where
  | completed (c : Completion) (ht : t = s.done c)
  | outstanding (op : Op) (k : Nat) (c : BusCall) (hq : s.seq = .busy op k) (hdue : s.latch.due = none)
      (hcall : operandsLatched i s.latch = true → (callsOf s.years i)[k - 1]? = some c)
      (ht : t = { s with bus := some c })
  | returned (op : Op) (k : Nat) (c : BusCall) (f : Byte → State → State) (a : Answer)
      (hq : s.seq = .busy op k) (hdue : s.latch.due = none) (hk : 1 ≤ k ∧ k ≤ lastStep i.op)
      (hcall : operandsLatched i s.latch = true → (callsOf s.years i)[k - 1]? = some c)
      (hf : Attached i k f) (ha : s.env.answer c s.draws = some a) (ht : t = f a.ret (s.returned c a))

/-- Every event that comes to a state has one of the three results. -/
theorem event_result {i : Instr} {s t : State} (hq : s.seq ≠ .idle)
    (h : State.event (stepsOf i) s = .moved t ∨ State.event (stepsOf i) s = .waiting t) :
    EventResult i s t := by
  rcases event_cases i s hq with
    ⟨c, hc⟩ | ⟨hc, -⟩ | ⟨op, k, c, f, hk, hdue, h1, hl, hf, hcall, ⟨-, hc⟩ | ⟨a, ha, hc⟩⟩
  · exact .completed c (by simpa [hc, eq_comm] using h)
  · simp [hc] at h
  · exact .outstanding op k c hk hdue hcall (by simpa [hc, eq_comm] using h)
  · exact .returned op k c f a hk hdue ⟨h1, hl⟩ hcall hf ha (by simpa [hc, eq_comm] using h)

/-- A command in flight stays in flight through its assignments, which move `SEQ` within its operation. -/
theorem Attached.seq_ne_idle {i : Instr} {k : Nat} {f : Byte → State → State} (hf : Attached i k f) (b : Byte)
    {s : State} (hq : s.seq ≠ .idle) : (f b s).seq ≠ .idle := by
  cases hs : s.seq with
  | idle => exact absurd hs hq
  | busy op j =>
    rcases hf.goesOn b s with ⟨h, -⟩ | ⟨h, -⟩ <;> simp [h, hs, Seq.next]

section EventResult
variable {i : Instr} {s t : State} (h : EventResult i s t)
include h

/-- An event comes back to IDLE by a completion and in no other way (R33). -/
theorem EventResult.done_of_idle (hs : s.seq ≠ .idle) (ht : t.seq = .idle) : ∃ c, t = s.done c := by
  cases h with
  | completed c h => exact ⟨c, h⟩
  | outstanding _ _ c _ _ _ h => rw [h] at ht; exact absurd ht hs
  | returned _ _ c f a _ _ _ _ hf _ h => rw [h] at ht; exact absurd ht (hf.seq_ne_idle a.ret hs)

/-- While a command is in flight its word stays latched, and its grant and all ports stand (R74). -/
theorem EventResult.of_inFlight (ht : t.seq ≠ .idle) :
    t.latch.cmd = s.latch.cmd ∧ t.grant = s.grant ∧ t.ports = s.ports := by
  cases h with
  | completed c h => simp [h] at ht
  | outstanding _ _ c _ _ _ h => rw [h]; exact ⟨rfl, rfl, rfl⟩
  | returned _ _ c f a _ _ _ _ hf _ h =>
    rw [h, hf.cmd, hf.grant, hf.ports]
    exact ⟨rfl, rfl, rfl⟩

/-- The environment changes by an answer of the collaborator alone. -/
theorem EventResult.env : t.env = s.env ∨ ∃ c a, s.env.answer c s.draws = some a ∧ t.env = a.env := by
  cases h with
  | completed c h => rw [h]; exact .inl rfl
  | outstanding _ _ c _ _ _ h => rw [h]; exact .inl rfl
  | returned _ _ c f a _ _ _ _ hf ha h => rw [h, hf.env]; exact .inr ⟨c, a, ha, rfl⟩

theorem EventResult.agenda : t.agenda = s.agenda := by
  cases h with
  | completed c h => rw [h]; rfl
  | outstanding _ _ c _ _ _ h => rw [h]
  | returned _ _ c f a _ _ _ _ hf _ h => rw [h, hf.agenda]; rfl

end EventResult

/-- Before an event the other agents reset the block or leave its latches alone. -/
theorem State.otherAgents_cmd {s : State} (h : s.otherAgents.seq ≠ .idle) :
    s.otherAgents.latch.cmd = s.latch.cmd := by
  rcases s.otherAgents_cases with ⟨hidle, -⟩ | hframe
  · exact absurd hidle h
  · rw [hframe]

/-- With no reset among the moves, the other agents leave a command in flight where it stands. -/
theorem State.otherAgents_of_noReset {s : State} (h : noReset s.agenda = true) :
    s.otherAgents = { s with
      ports := s.otherAgents.ports, env := s.otherAgents.env, agenda := s.agenda.tail } := by
  rcases s.otherAgents_cases with ⟨-, -, -, -, -, -, -, hreset⟩ | hframe
  · simp [h] at hreset
  · exact hframe

/-! ## Inductions over events -/

section run
variable {i : Instr} {P : State → Prop}

/-- What the other agents and the events of a command in flight keep holds at the end of its run. -/
theorem run_induction (others : ∀ s, s.seq ≠ .idle → P s → P s.otherAgents)
    (event : ∀ s t, s.seq ≠ .idle → P s → EventResult i s t → P t) (n : Nat) {s : State}
    (hq : s.seq ≠ .idle) (h : P s) : P (State.run (stepsOf i) n s) := by
  induction n generalizing s with
  | zero => exact h
  | succ n ih =>
    have ho := others s hq h
    simp only [State.run]
    split
    · exact ho
    · rename_i hbusy
      have hb : s.otherAgents.seq ≠ .idle := by simp [hbusy]
      split
      · exact event _ _ hb ho (event_result hb (.inr ‹_›))
      · exact ho
      · have ht := event _ _ hb ho (event_result hb (.inl ‹_›))
        split
        · exact ht
        · exact ih ‹_› ht

/-- The same for an execution, from the command's first step on. -/
theorem exec_induction (others : ∀ s, s.seq ≠ .idle → P s → P s.otherAgents)
    (event : ∀ s t, s.seq ≠ .idle → P s → EventResult i s t → P t) {s t : State}
    (hstart : P (s.started i)) (h : exec i s = .next t) : P t := by
  rw [exec_eq_started] at h
  cases h
  exact run_induction others event _ (by simp) hstart

end run

/-- Where an execution ends (R32, R34): in IDLE, or at a primitive that did not return. -/
theorem exec_end {i : Instr} {s t : State} (h : exec i s = .next t) :
    t.seq = .idle ∨ ∃ u c, t = { u with bus := some c } ∧ u.env.answer c u.draws = none ∧
      State.event (stepsOf i) u = .waiting { u with bus := some c } ∧ (∃ k, u.seq = .busy i.op k) ∧
      u.latch.cmd = s.latch.cmd := by
  rw [exec_eq_started] at h
  cases h
  rcases run_end i Config.maxEvents (s.started i) 1 (by simp) (le_refl 1) (one_le_lastStep i.op)
    (fun _ => le_refl 15) (by decide) with hidle | ⟨u, c, hsilent, hrun, hwait, -, hseq, hcmd⟩
  · exact .inl hidle
  · exact .inr ⟨u, c, hrun, hsilent, hwait, hseq, hcmd.trans (s.started_cmd i)⟩

end Sys2Proof.Machine
end

section
/-! PROOFS. The ports under the moves of the other agents and under a delivery (R33, R70, R191): what becomes of
the responses presented and of the owner's command port. -/
namespace Sys2Proof.Machine

/-! ## Responses -/

/-- Whether responses are presented is read off the response ports alone. -/
theorem noResponse_of_responses_eq {ps qs : List Port} (h : ps.map (·.rsp) = qs.map (·.rsp))
    (hq : ∀ p ∈ qs, p.rsp = none) : ∀ p ∈ ps, p.rsp = none := by
  have hall : ∀ x ∈ qs.map (·.rsp), x = none := by simpa using hq
  rw [← h] at hall
  simpa using hall

theorem response_ne_of_noResponse {ports : List Port} (h : ∀ p ∈ ports, p.rsp = none) (r : Nat) (w : Word) :
    ports[r]?.map (·.rsp) ≠ some (some w) := by
  intro hr
  obtain ⟨p, hp, hw⟩ := Option.map_eq_some_iff.mp hr
  simp [h p (List.mem_of_getElem? hp)] at hw

/-- A requester that presents a command changes no response port (R70). -/
theorem State.present_responses (s : State) (r : Nat) (w : Word) :
    (s.present r w).ports.map (·.rsp) = s.ports.map (·.rsp) := by
  unfold State.present
  split
  · rfl
  · apply List.ext_getElem?
    intro q
    by_cases hq : r = q <;> simp [hq, Function.comp_def]

/-- A move leaves the response ports alone, or it is a reset, after which they are free. -/
theorem State.otherMove_responses (s : State) (m : Move) :
    (s.otherMove m).ports.map (·.rsp) = s.ports.map (·.rsp) ∨ ∀ p ∈ (s.otherMove m).ports, p.rsp = none := by
  rcases s.otherMove_cases m with ⟨-, h⟩ | ⟨-, -, h | ⟨r, w, rfl⟩⟩
  · right; simp [h]
  · left; rw [h]
  · left; exact s.present_responses r w

/-- Before an event the other agents leave the response ports alone, or a reset has freed them. -/
theorem State.otherAgents_responses (s : State) :
    s.otherAgents.ports.map (·.rsp) = s.ports.map (·.rsp) ∨ ∀ p ∈ s.otherAgents.ports, p.rsp = none := by
  refine State.otherAgents_keeps
    (fun t => t.ports.map (·.rsp) = s.ports.map (·.rsp) ∨ ∀ p ∈ t.ports, p.rsp = none)
    (fun _ _ h => h) ?_ (.inl rfl)
  intro t m h
  rcases t.otherMove_responses m with hm | hm
  · exact h.imp hm.trans (noResponse_of_responses_eq hm)
  · exact .inr hm

theorem responsesPresented_eq (ports : List Port) :
    responsesPresented ports = (ports.map (·.rsp)).countP Option.isSome := by
  rw [List.countP_map]; rfl

theorem responsesPresented_eq_zero {ports : List Port} :
    responsesPresented ports = 0 ↔ ∀ p ∈ ports, p.rsp = none := by
  simp [responsesPresented, List.countP_eq_zero]

/-- No response appears by a move of the other agents. -/
theorem State.otherMove_responsesPresented (s : State) (m : Move) :
    responsesPresented (s.otherMove m).ports ≤ responsesPresented s.ports := by
  rcases s.otherMove_responses m with h | h
  · rw [responsesPresented_eq, h, ← responsesPresented_eq]
  · rw [responsesPresented_eq_zero.mpr h]; exact Nat.zero_le _

theorem State.takeResponses_responses (s : State) : ∀ p ∈ s.takeResponses.ports, p.rsp = none := by simp

/-- With every response taken, none is presented when the other agents have moved. -/
theorem State.otherAgents_noResponse {s : State} (h : ∀ p ∈ s.ports, p.rsp = none) :
    ∀ p ∈ s.otherAgents.ports, p.rsp = none :=
  s.otherAgents_responses.elim (fun ho => noResponse_of_responses_eq ho h) id

/-- A delivery changes the response port of one requester at most (R33, R168). -/
theorem deliver_other {g : Option Nat} {r : Nat} (h : g ≠ some r) (w : Word) (ports : List Port) :
    (deliver g w ports)[r]? = ports[r]? := by
  unfold deliver
  split
  · rfl
  · rename_i q
    have hq : q ≠ r := fun e => h (by rw [e])
    simp [hq]

/-- The requester that holds the grant gets the response word (R33). -/
theorem deliver_rsp_owner {r : Nat} {ports : List Port} (w : Word) (h : r < ports.length) :
    (deliver (some r) w ports)[r]?.map (·.rsp) = some (some w) := by
  simp [deliver, h]

/-- With no response presented before, a delivery presents one at most (R33). -/
theorem deliver_responsesPresented (g : Option Nat) (w : Word) {ports : List Port}
    (h : ∀ p ∈ ports, p.rsp = none) : responsesPresented (deliver g w ports) ≤ 1 := by
  unfold deliver
  split
  · rw [responsesPresented_eq_zero.mpr h]; exact Nat.zero_le _
  · rename_i r
    induction ports generalizing r with
    | nil => simp [responsesPresented]
    | cons p ps ih =>
      obtain ⟨hp, hps⟩ := List.forall_mem_cons.mp h
      cases r with
      | zero =>
        have hz := responsesPresented_eq_zero.mpr hps
        simp only [responsesPresented] at hz
        simp [responsesPresented, hz]
      | succ r => simpa [responsesPresented, hp] using ih hps r

/-! ## The owner's command port (R20, R70) -/

theorem ownerWaits_iff {g : Option Nat} {ports : List Port} :
    ownerWaits g ports = true ↔ ∃ r, g = some r ∧ ports[r]?.map (·.cmd) = some none := by
  cases g with
  | none => simp [ownerWaits]
  | some r => cases h : ports[r]? <;> simp [ownerWaits, h]

/-- The owner presents no other command while its own is in flight, and nobody else uses its port (R191). -/
theorem State.present_ownerWaits {s : State} (h : ownerWaits s.grant s.ports = true) (r : Nat) (w : Word) :
    ownerWaits s.grant (s.present r w).ports = true := by
  obtain ⟨q, hg, hq⟩ := ownerWaits_iff.mp h
  refine ownerWaits_iff.mpr ⟨q, hg, ?_⟩
  unfold State.present
  split
  · exact hq
  · rename_i hr
    have hne : r ≠ q := fun e => hr (by rw [hg, e])
    simpa [List.getElem?_modify, hne] using hq

theorem State.takeResponses_ownerWaits {s : State} (h : ownerWaits s.grant s.ports = true) :
    ownerWaits s.grant s.takeResponses.ports = true := by
  obtain ⟨r, hg, hr⟩ := ownerWaits_iff.mp h
  exact ownerWaits_iff.mpr ⟨r, hg, by simpa using hr⟩

/-- The arbiter's choice is a requester of the block, and acceptance frees its command port (R70). -/
theorem State.accept_ownerWaits {s : State} {r : Nat} {w : Word} (h : s.arbitrate = some (r, w)) :
    ownerWaits (s.accept r w).grant (s.accept r w).ports = true := by
  obtain ⟨-, hr⟩ := waitingFrom_mem (State.arbitrate_mem h).1
  refine ownerWaits_iff.mpr ⟨r, rfl, ?_⟩
  cases hp : s.ports[r]? with
  | none => simp [hp] at hr
  | some p => simp [hp]

end Sys2Proof.Machine
end

section
/-! PROOFS. What holds of an execution, whatever the collaborator answers and the other agents do: the flag, the
length of the operation, the state after completion and the response (R25, R32, R33, R168). -/
namespace Sys2Proof.Machine

/-! ## After completion (R33) -/

/-- Nothing of a command stands in the block. -/
def State.AtRest (s : State) : Prop := s.grant = none ∧ s.latch = Latches.reset ∧ s.bus = none

theorem State.otherAgents_atRest {s : State} (h : s.seq = .idle → s.AtRest)
    (hq : s.otherAgents.seq = .idle) : s.otherAgents.AtRest := by
  rcases s.otherAgents_cases with ⟨-, hg, hl, hb, -⟩ | hframe
  · exact ⟨hg, hl, hb⟩
  · rw [hframe] at hq ⊢
    exact h hq

theorem EventResult.atRest {i : Instr} {s t : State} (h : EventResult i s t) (hs : s.seq ≠ .idle)
    (ht : t.seq = .idle) : t.AtRest := by
  obtain ⟨c, rfl⟩ := h.done_of_idle hs ht
  exact ⟨rfl, rfl, rfl⟩

/-- Settles O33: the one way back to IDLE is a completion or a reset, and both leave the block at rest. -/
theorem nothingOfAFinishedCommandRemains : Obligations.NothingOfAFinishedCommandRemains := by
  intro i s t hexec
  exact exec_induction (P := fun u => u.seq = .idle → u.AtRest)
    (fun _ _ h => State.otherAgents_atRest h) (fun _ _ hq _ he => he.atRest hq) (by simp) hexec

/-! ## The flag (R25) -/

theorem EventResult.presence {i : Instr} {s t : State} (h : EventResult i s t)
    (hi : writesPresence i.op = false) : t.presence = s.presence := by
  cases h with
  | completed c h => rw [h]; rfl
  | outstanding _ _ c _ _ _ h => rw [h]
  | returned _ _ c f a _ _ _ _ hf _ h => rw [h, hf.presence _ _ hi]; rfl

theorem State.otherAgents_keeps_noReset {s : State} (h : noReset s.agenda = true) :
    noReset s.otherAgents.agenda = true := by
  rw [State.otherAgents_of_noReset h]
  exact noReset_tail h

theorem writesPresence_eq_false {op : Op} (h1 : op ≠ .read) (h2 : op ≠ .write) (h3 : op ≠ .get)
    (h4 : op ≠ .set) : writesPresence op = false := by
  cases op with
  | read => exact absurd rfl h1
  | write => exact absurd rfl h2
  | get => exact absurd rfl h3
  | set => exact absurd rfl h4
  | _ => rfl

/-- Settles O30: no event of such an operation writes the flag, and no reset comes between. -/
theorem presenceWrittenOnlyByTransfers : Obligations.PresenceWrittenOnlyByTransfers := by
  intro i s t h1 h2 h3 h4 hreset hexec
  have hi := writesPresence_eq_false h1 h2 h3 h4
  refine (exec_induction (P := fun u => noReset u.agenda = true ∧ u.presence = s.presence)
    ?_ ?_ (by simpa using hreset) hexec).2
  · intro u _ ⟨hr, hp⟩
    refine ⟨State.otherAgents_keeps_noReset hr, ?_⟩
    rw [State.otherAgents_of_noReset hr]
    exact hp
  · intro u v _ ⟨hr, hp⟩ he
    exact ⟨he.agenda ▸ hr, (he.presence hi).trans hp⟩

/-! ## The length of an operation (R32) -/

theorem State.otherAgents_trace (s : State) : s.otherAgents.trace = s.trace := by
  rcases s.otherAgents_cases with ⟨-, -, -, -, h, -⟩ | h
  · exact h
  · rw [h]

/-- At most `base + 14` primitives are recorded, and with `SEQ` at a step at most as many beyond `base` as the
steps that are done. -/
def State.RecordBounded (base : Nat) (s : State) : Prop :=
  s.trace.length ≤ base + 14 ∧ ∀ op k, s.seq = .busy op k → s.trace.length ≤ base + s.latch.returned k

theorem State.otherAgents_recordBounded {base : Nat} {s : State} (h : s.RecordBounded base) :
    s.otherAgents.RecordBounded base := by
  obtain ⟨hlen, hstep⟩ := h
  rw [State.RecordBounded, State.otherAgents_trace]
  refine ⟨hlen, fun op k hq => ?_⟩
  rcases s.otherAgents_cases with ⟨hidle, -⟩ | hframe
  · rw [hidle] at hq; cases hq
  · rw [hframe] at hq ⊢
    exact hstep op k hq

/-- Where assignments leave `SEQ`, the primitive they are attached to is one of those that have returned. -/
theorem Attached.returned_eq {i : Instr} {k : Nat} {f : Byte → State → State} (hf : Attached i k f) (b : Byte)
    {s : State} {op op' : Op} {j : Nat} (hq : s.seq = .busy op k) (hdue : s.latch.due = none)
    (hj : (f b s).seq = .busy op' j) : (f b s).latch.returned j = k := by
  rcases hf.goesOn b s with ⟨hseq, hd, -⟩ | ⟨hseq, hd⟩
  · rw [hseq, hq] at hj
    cases hj
    simp [Latches.returned, hd, hdue]
  · rw [hseq, hq] at hj
    cases hj
    simp [Latches.returned, hd]

theorem EventResult.recordBounded {i : Instr} {base : Nat} {s t : State} (h : EventResult i s t)
    (hs : s.RecordBounded base) : t.RecordBounded base := by
  cases h with
  | completed c h => rw [h]; exact ⟨hs.1, nofun⟩
  | outstanding _ _ c _ _ _ h => rw [h]; exact hs
  | returned op k c f a hq hdue hk _ hf _ h =>
    subst h
    have hbefore := hs.2 op k hq
    have hlast := lastStep_le i.op
    have hlen : (f a.ret (s.returned c a)).trace.length ≤ base + k := by
      simp only [Latches.returned, hdue, if_true] at hbefore
      simp only [hf.trace, State.returned_trace, List.length_append, List.length_singleton]
      omega
    refine ⟨by omega, fun op' j hj => ?_⟩
    rwa [hf.returned_eq (s := s.returned c a) a.ret hq hdue hj]

/-- Settles O31: the fuel takes every run to its end, and each step records one primitive at most. -/
theorem operationEndsOrWaits : Obligations.OperationEndsOrWaits := by
  intro i s t hexec
  constructor
  · exact (exec_end hexec).imp id fun ⟨u, c, ht, _⟩ => by simp [ht]
  · exact (exec_induction (P := State.RecordBounded s.trace.length)
      (fun _ _ => State.otherAgents_recordBounded) (fun _ _ _ hs he => he.recordBounded hs)
      (by simp [State.RecordBounded]) hexec).1

/-! ## The response (R33, R79, R168) -/

/-- A response that is presented goes to `g`, which holds the grant while the command is in flight. -/
structure State.AnswersTo (g : Option Nat) (s : State) : Prop where
  grant : s.seq ≠ .idle → s.grant = g
  response : ∀ r w, s.ports[r]?.map (·.rsp) = some (some w) → g = some r

theorem State.otherAgents_answersTo {g : Option Nat} {s : State} (hq : s.seq ≠ .idle) (h : s.AnswersTo g) :
    s.otherAgents.AnswersTo g where
  grant hq' := by
    rcases s.otherAgents_cases with ⟨hidle, -⟩ | hframe
    · exact absurd hidle hq'
    · rw [hframe]; exact h.grant hq
  response r w hr := by
    rcases s.otherAgents_responses with ho | ho
    · rw [← List.getElem?_map, ho, List.getElem?_map] at hr
      exact h.response r w hr
    · exact absurd hr (response_ne_of_noResponse ho r w)

theorem EventResult.answersTo {i : Instr} {g : Option Nat} {s t : State} (he : EventResult i s t)
    (hq : s.seq ≠ .idle) (h : s.AnswersTo g) : t.AnswersTo g := by
  by_cases ht : t.seq = .idle
  · obtain ⟨c, rfl⟩ := he.done_of_idle hq ht
    refine ⟨fun hne => absurd ht hne, fun r w hr => ?_⟩
    by_contra hne
    rw [State.done_ports, h.grant hq, deliver_other hne] at hr
    exact hne (h.response r w hr)
  · obtain ⟨-, hgrant, hports⟩ := he.of_inFlight ht
    exact ⟨fun _ => hgrant.trans (h.grant hq), hports ▸ h.response⟩

/-- Settles O36: a response port gets a word from a completion alone, and that delivers to the grant. -/
theorem responseOnlyToTheOwner : Obligations.ResponseOnlyToTheOwner := by
  intro i s t r w hfree hexec
  have hstart : (s.started i).AnswersTo s.grant :=
    ⟨fun _ => s.started_grant i, fun q v hq =>
      absurd (s.started_ports i ▸ hq) (response_ne_of_noResponse hfree q v)⟩
  exact (exec_induction (P := State.AnswersTo s.grant) (fun _ hq h => State.otherAgents_answersTo hq h)
    (fun _ _ hq h he => he.answersTo hq h) hstart hexec).response r w

/-- The collaborator is the reference environment or one of its variants (R75, R79). -/
def Env.Reference (e : Env) : Prop := ∀ l, e.kind ≠ .unspecified l

theorem Env.reference_keeps_reference {e : Env} (h : e.Reference) (c : BusCall) (d : Nat) :
    (e.reference c d).env.Reference := by
  unfold Env.Reference at *
  cases c with
  | busOpen a => exact h
  | busWrite b => exact h
  | busRead => simp only [Env.reference, Env.take]; split <;> exact h
  | busRequest a k => simp only [Env.reference]; split <;> exact h
  | busClose =>
    simp only [Env.reference]
    split
    · exact h
    · split <;> simp
    · exact h

/-- Short of a reset, the platform does not exchange the collaborator of a command in flight (R181, R183). -/
theorem State.otherAgents_keeps_reference {s : State} (h : s.env.Reference)
    (hq : s.otherAgents.seq ≠ .idle) : s.otherAgents.env.Reference := by
  refine (State.otherAgents_keeps (fun t => t.seq = .idle ∨ t.env.Reference) (fun _ _ h => h) ?_
    (.inr h)).resolve_left hq
  intro t m ht
  cases m with
  | rst => exact .inl rfl
  | busInit k =>
    cases hseq : t.seq with
    | idle => exact .inl (by rw [State.otherMove, State.busInit_frame]; exact hseq)
    | busy op j => simpa [State.otherMove, State.busInit, hseq] using ht
  | present r w =>
    simp only [State.otherMove]
    rw [State.present_frame]
    exact ht
  | tick | foreignPointer | foreignWrite => exact ht

/-- A command of requester `r` that can neither be abandoned nor stand for ever: no reset is coming; in flight,
`r` holds the grant and the collaborator answers; in IDLE, `r` has its response. -/
structure State.Served (r : Nat) (s : State) : Prop where
  quiet : noReset s.agenda = true
  port : r < s.ports.length
  inFlight : s.seq ≠ .idle → s.grant = some r ∧ s.env.Reference
  answered : s.seq = .idle → ∃ w, s.ports[r]?.map (·.rsp) = some (some w)

theorem State.otherAgents_served {r : Nat} {s : State} (hq : s.seq ≠ .idle) (h : s.Served r) :
    s.otherAgents.Served r := by
  have hframe := State.otherAgents_of_noReset h.quiet
  have hseq : s.otherAgents.seq = s.seq := by rw [hframe]
  have hgrant : s.otherAgents.grant = s.grant := by rw [hframe]
  obtain ⟨hg, he⟩ := h.inFlight hq
  exact {
    quiet := State.otherAgents_keeps_noReset h.quiet
    port := by rw [s.otherAgents_sameParameters.1]; exact h.port
    inFlight := fun hq' => ⟨hgrant.trans hg, State.otherAgents_keeps_reference he hq'⟩
    answered := fun hidle => absurd (hseq ▸ hidle) hq }

theorem EventResult.env_reference {i : Instr} {s t : State} (he : EventResult i s t) (h : s.env.Reference) :
    t.env.Reference := by
  rcases he.env with ht | ⟨c, a, ha, ht⟩
  · rwa [ht]
  · rw [Env.answer_of_reference h] at ha
    cases ha
    rw [ht]
    exact Env.reference_keeps_reference h c s.draws

theorem EventResult.served {i : Instr} {r : Nat} {s t : State} (he : EventResult i s t) (hq : s.seq ≠ .idle)
    (h : s.Served r) : t.Served r := by
  have hquiet : noReset t.agenda = true := he.agenda ▸ h.quiet
  obtain ⟨hg, henv⟩ := h.inFlight hq
  by_cases ht : t.seq = .idle
  · obtain ⟨c, rfl⟩ := he.done_of_idle hq ht
    refine ⟨hquiet, by simpa using h.port, fun hne => absurd ht hne, fun _ => ?_⟩
    rw [State.done_ports, hg]
    exact ⟨_, deliver_rsp_owner _ h.port⟩
  · obtain ⟨-, hgrant, hports⟩ := he.of_inFlight ht
    exact ⟨hquiet, hports ▸ h.port, fun _ => ⟨hgrant.trans hg, he.env_reference henv⟩,
      fun hidle => absurd hidle ht⟩

/-- Settles O32: a run stands in flight only at a primitive without an answer, and a reference environment
answers every primitive. -/
theorem answeringCollaboratorCompletes : Obligations.AnsweringCollaboratorCompletes := by
  intro i s t r hkind hreset hgrant hport hexec
  have hstart : (s.started i).Served r :=
    ⟨by simpa using hreset, by simpa using hport,
      fun _ => ⟨by simpa using hgrant, by rw [State.started_env]; exact hkind⟩, by simp⟩
  have hserved : t.Served r := exec_induction (fun _ hq h => State.otherAgents_served hq h)
    (fun _ _ hq h he => he.served hq h) hstart hexec
  have hidle : t.seq = .idle := by
    by_contra hq
    rcases exec_end hexec with hidle | ⟨u, c, rfl, hsilent, -⟩
    · exact hq hidle
    · have hanswer := Env.answer_of_reference (hserved.inFlight hq).2 c u.draws
      simp [hsilent] at hanswer
  exact ⟨hidle, hserved.answered hidle⟩

end Sys2Proof.Machine
end

section
/-! PROOFS. What a step comes to, forward: in IDLE, and with a command in flight event by event (R30, R34, R70). -/
namespace Sys2Proof.Machine

/-- In IDLE a step is what the arbiter's choice leads to, the other agents having moved (R70). -/
theorem step_idle {s : State} (h : s.takeResponses.otherAgents.seq = .idle) :
    step s = s.takeResponses.otherAgents.accepted := by
  simp [step, h]

/-- In flight a step takes up the command, the other agents having moved (R32). -/
theorem step_busy {s : State} {op : Op} {k : Nat} (h : s.takeResponses.otherAgents.seq = .busy op k) :
    step s = s.takeResponses.otherAgents.resume s.agenda.isEmpty := by
  simp [step, h]

/-- Whatever the arbiter chooses, the block has a next state. -/
theorem State.accepted_next (s : State) : ∃ t, s.accepted = .next t := by
  unfold State.accepted
  split
  · exact ⟨_, rfl⟩
  · split
    · exact ⟨_, rfl⟩
    · exact ⟨_, exec_eq_started _ _⟩

section resume
variable {s t : State} {i : Instr} {k : Nat} {quiet : Bool}

theorem State.resume_moved (hi : decode s.latch.cmd = .ok i) (hq : s.seq = .busy i.op k)
    (he : State.event (stepsOf i) s = .moved t) :
    s.resume quiet = .next (if t.seq = .idle then t else State.run (stepsOf i) Config.maxEvents t) := by
  simp [State.resume, hi, hq, he]

theorem State.resume_waiting (hi : decode s.latch.cmd = .ok i) (hq : s.seq = .busy i.op k)
    (he : State.event (stepsOf i) s = .waiting t) :
    s.resume quiet = if quiet then .fault .busNeverReturns else .next t := by
  simp [State.resume, hi, hq, he]

end resume

/-- With nobody else moving the command in flight is taken up where it stands (R32). -/
theorem step_busy_quiet {s : State} {op : Op} {k : Nat} (ha : s.agenda = []) (hq : s.seq = .busy op k) :
    step s = s.takeResponses.resume true := by
  have hothers : s.takeResponses.otherAgents = s.takeResponses := State.otherAgents_quiet ha
  rw [step_busy (by rw [hothers]; exact hq), hothers, ha]
  rfl

/-- Settles O11: with nobody else moving, the step takes up the event that `SEQ` names. -/
theorem stepContinuesCommandInFlight : Obligations.StepContinuesCommandInFlight := by
  intro s t i k ha hq hi he
  rw [step_busy_quiet ha hq]
  exact State.resume_moved hi hq he

/-- Settles O34: the primitive that did not return does not return when it is called again. -/
theorem unansweredPrimitiveIsStuck : Obligations.UnansweredPrimitiveIsStuck := by
  intro i s t hi hexec hbusy ha
  rcases exec_end hexec with hidle | ⟨u, c, rfl, -, hwait, ⟨k, hq⟩, hcmd⟩
  · exact absurd hidle hbusy
  · have hagain := event_waiting_again (s' := State.takeResponses { u with bus := some c })
      (by simp [hq]) hwait rfl rfl rfl rfl rfl
    rw [step_busy_quiet ha hq]
    exact State.resume_waiting (hcmd ▸ hi) hq hagain

/-! ## IDLE with no command presented (R37, R70) -/

theorem waitingFrom_nobody {k : Nat} {ports : List Port} (h : ∀ p ∈ ports, p.cmd = none) :
    waitingFrom k ports = [] := by
  induction ports generalizing k with
  | nil => rfl
  | cons p ps ih =>
    obtain ⟨hp, hps⟩ := List.forall_mem_cons.mp h
    simp only [waitingFrom, hp]
    exact ih hps

theorem State.accepted_nobody {s : State} (h : waitingFrom 0 s.ports = []) : s.accepted = .next s := by
  simp [State.accepted, State.arbitrate, h, State.pass_nobody h]

/-- Settles O9: nobody waits, so the arbiter picks nobody and there is nothing to pass over. -/
theorem idleBlockWaits : Obligations.IdleBlockWaits := by
  intro s hagenda hq hfree
  have hothers : s.takeResponses.otherAgents = s.takeResponses := State.otherAgents_quiet hagenda
  rw [step_idle (by rw [hothers]; exact hq), hothers]
  exact State.accepted_nobody (waitingFrom_nobody (by simpa using hfree))

end Sys2Proof.Machine
end

section
/-! PROOFS. The invariant over a step: each thing a step is made of keeps it, and in a state that has it the
command in flight has an event. -/
namespace Sys2Proof.Machine

/-! ## The induction over what a step is made of -/

section step
variable {P : State → Prop}

/-- What the other agents and the events of the command in `CMD` keep holds at the end of its run. -/
theorem run_induction_of_decode {i : Instr} (others : ∀ s, P s → P s.otherAgents)
    (event : ∀ s t, s.seq ≠ .idle → decode s.latch.cmd = .ok i → P s → EventResult i s t → P t) (n : Nat)
    {s : State} (hq : s.seq ≠ .idle) (hi : decode s.latch.cmd = .ok i) (h : P s) :
    P (State.run (stepsOf i) n s) := by
  refine (run_induction (P := fun u => P u ∧ (u.seq ≠ .idle → decode u.latch.cmd = .ok i))
    ?_ ?_ n hq ⟨h, fun _ => hi⟩).1
  · intro u hu ⟨hp, hdec⟩
    exact ⟨others u hp, fun hu' => State.otherAgents_cmd hu' ▸ hdec hu⟩
  · intro u v hu ⟨hp, hdec⟩ he
    exact ⟨event u v hu (hdec hu) hp he, fun hv => (he.of_inFlight hv).1 ▸ hdec hu⟩

/-- What every part of a step keeps, every step keeps. At the acceptance no response is presented, all being
taken before. -/
theorem step_induction (take : ∀ s, P s → P s.takeResponses) (others : ∀ s, P s → P s.otherAgents)
    (pass : ∀ s, s.seq = .idle → P s → P s.pass)
    (illegal : ∀ s r w, s.seq = .idle → (∀ p ∈ s.ports, p.rsp = none) → P s →
      P (s.accept r w).answerIllegal)
    (accepted : ∀ s r w i, s.seq = .idle → (∀ p ∈ s.ports, p.rsp = none) → s.arbitrate = some (r, w) →
      decode w = .ok i → P s → P ((s.accept r w).started i))
    (event : ∀ i s t, s.seq ≠ .idle → decode s.latch.cmd = .ok i → P s → EventResult i s t → P t)
    {s t : State} (h : P s) (hstep : step s = .next t) : P t := by
  have hu : P s.takeResponses.otherAgents := others _ (take s h)
  have hfree := State.otherAgents_noResponse s.takeResponses_responses
  have run (i : Instr) {v : State} := run_induction_of_decode (s := v) others (event i) Config.maxEvents
  rcases step_cases hstep with
    ⟨hq, -, rfl⟩ | ⟨hq, r, w, harb, ⟨-, -, rfl⟩ | ⟨i, hi, hexec⟩⟩ |
    ⟨i, k, hq, hi, ⟨hwait, -⟩ | ⟨v, hmoved, rfl⟩⟩
  · exact pass _ hq hu
  · exact illegal _ r w hq hfree hu
  · rw [exec_eq_started] at hexec
    cases hexec
    exact run i (by simp) (by simpa using hi) (accepted _ r w i hq hfree harb hi hu)
  · exact event i _ _ (by simp [hq]) hi hu (event_result (by simp [hq]) (.inr hwait))
  · have he := event_result (i := i) (by simp [hq]) (.inl hmoved)
    have hv : P v := event i _ v (by simp [hq]) hi hu he
    split
    · exact hv
    · exact run i ‹_› ((he.of_inFlight ‹_›).1 ▸ hi) hv

end step

/-! ## The invariant, in IDLE and in flight -/

theorem State.inv_iff_idle {s : State} (hq : s.seq = .idle) : s.inv = true ↔
    s.env.chip.mem.wf = true ∧ 1 ≤ s.ports.length ∧ s.AtRest ∧ responsesPresented s.ports ≤ 1 := by
  simp [State.inv, hq, State.AtRest, and_assoc]

theorem State.inv_iff_busy {s : State} {op : Op} {k : Nat} (hq : s.seq = .busy op k) : s.inv = true ↔
    s.env.chip.mem.wf = true ∧ 1 ≤ s.ports.length ∧ ownerWaits s.grant s.ports = true ∧
      commandInFlight s.latch op k = true ∧ responsesPresented s.ports = 0 := by
  simp [State.inv, hq, and_assoc]

theorem State.inv_mem_wf {s : State} (h : s.inv = true) : s.env.chip.mem.wf = true := by
  simp only [State.inv, Bool.and_eq_true] at h
  exact h.1.1

theorem State.inv_ports {s : State} (h : s.inv = true) : 1 ≤ s.ports.length := by
  simp only [State.inv, Bool.and_eq_true, decide_eq_true_eq] at h
  exact h.1.2

theorem State.inv_responses {s : State} (h : s.inv = true) : responsesPresented s.ports ≤ 1 := by
  cases hq : s.seq with
  | idle => exact ((State.inv_iff_idle hq).mp h).2.2.2
  | busy op k => exact ((State.inv_iff_busy hq).mp h).2.2.2.2 ▸ Nat.zero_le 1

theorem commandInFlight_iff {l : Latches} {op : Op} {k : Nat} : commandInFlight l op k = true ↔
    ∃ i, decode l.cmd = .ok i ∧ i.op = op ∧ 1 ≤ k ∧ k ≤ lastStep op ∧ operandsLatched i l = true := by
  unfold commandInFlight
  cases decode l.cmd <;> simp [and_assoc]

/-! ## What keeps it -/

/-- Settles O42, by evaluation: nothing of a command stands in the reset state and its record is empty. -/
theorem resetHasTheInvariant : Obligations.ResetHasTheInvariant :=
  ⟨by decide, rfl, .get, List.nil_prefix⟩

theorem State.takeResponses_inv {s : State} (h : s.inv = true) : s.takeResponses.inv = true := by
  have hfree := responsesPresented_eq_zero.mpr s.takeResponses_responses
  have hlen : 1 ≤ s.takeResponses.ports.length := by simpa using State.inv_ports h
  cases hq : s.seq with
  | idle =>
    obtain ⟨hmem, -, hrest, -⟩ := (State.inv_iff_idle hq).mp h
    exact (State.inv_iff_idle (s := s.takeResponses) hq).mpr ⟨hmem, hlen, hrest, hfree ▸ Nat.zero_le 1⟩
  | busy op k =>
    obtain ⟨hmem, -, howner, hcmd, -⟩ := (State.inv_iff_busy hq).mp h
    exact (State.inv_iff_busy (s := s.takeResponses) hq).mpr
      ⟨hmem, hlen, State.takeResponses_ownerWaits howner, hcmd, hfree⟩

/-- The chip's memory is canonical after every move (R58, R73, R80). -/
theorem State.otherMove_mem_wf {s : State} (m : Move) (h : s.env.chip.mem.wf = true) :
    (s.otherMove m).env.chip.mem.wf = true := by
  cases m with
  | present r w => simp only [State.otherMove]; rw [State.present_frame]; exact h
  | tick t => exact Chip.tick_wf t h
  | foreignPointer p => exact h
  | foreignWrite a v => exact Memory.store_wf a v h
  | busInit k => simp only [State.otherMove, State.busInit]; split <;> exact h
  | rst => simp only [State.otherMove, State.rst_env, Env.afterReset]; split <;> exact h

/-- Short of a reset, a move leaves the owner's command port free (R191). -/
theorem State.otherMove_ownerWaits {s : State} {m : Move} (hm : m ≠ .rst)
    (h : ownerWaits s.grant s.ports = true) :
    ownerWaits (s.otherMove m).grant (s.otherMove m).ports = true := by
  rcases s.otherMove_cases m with ⟨hrst, -⟩ | ⟨-, hframe, hports⟩
  · exact absurd hrst hm
  · have hgrant : (s.otherMove m).grant = s.grant := by rw [hframe]
    rw [hgrant]
    rcases hports with hports | ⟨r, w, rfl⟩
    · rwa [hports]
    · exact State.present_ownerWaits h r w

theorem State.otherMove_inv {s : State} (m : Move) (h : s.inv = true) : (s.otherMove m).inv = true := by
  have hmem := State.otherMove_mem_wf m (State.inv_mem_wf h)
  have hlen : 1 ≤ (s.otherMove m).ports.length :=
    (State.otherMove_sameParameters s m).1 ▸ State.inv_ports h
  have hrsp := s.otherMove_responsesPresented m
  rcases s.otherMove_cases m with ⟨rfl, -⟩ | ⟨hm, hframe, -⟩
  · exact (State.inv_iff_idle rfl).mpr ⟨hmem, hlen, ⟨rfl, rfl, rfl⟩, hrsp.trans (State.inv_responses h)⟩
  · have hseq : (s.otherMove m).seq = s.seq := by rw [hframe]
    have hlatch : (s.otherMove m).latch = s.latch := by rw [hframe]
    cases hq : s.seq with
    | idle =>
      obtain ⟨-, -, hrest, hone⟩ := (State.inv_iff_idle hq).mp h
      refine (State.inv_iff_idle (hseq.trans hq)).mpr ⟨hmem, hlen, ?_, hrsp.trans hone⟩
      rw [hframe]; exact hrest
    | busy op k =>
      obtain ⟨-, -, howner, hcmd, hnone⟩ := (State.inv_iff_busy hq).mp h
      exact (State.inv_iff_busy (hseq.trans hq)).mpr ⟨hmem, hlen, State.otherMove_ownerWaits hm howner,
        hlatch ▸ hcmd, Nat.le_zero.mp (hnone ▸ hrsp)⟩

theorem State.otherAgents_inv {s : State} (h : s.inv = true) : s.otherAgents.inv = true :=
  State.otherAgents_keeps (fun t => t.inv = true) (fun _ _ h => h) (fun _ m h => State.otherMove_inv m h) h

/-- With no response presented before, a completion gives a state with the invariant (R33). -/
theorem State.done_inv {s : State} (c : Completion) (hmem : s.env.chip.mem.wf = true)
    (hlen : 1 ≤ s.ports.length) (hfree : ∀ p ∈ s.ports, p.rsp = none) : (s.done c).inv = true :=
  (State.inv_iff_idle rfl).mpr
    ⟨hmem, by simpa using hlen, ⟨rfl, rfl, rfl⟩, deliver_responsesPresented _ _ hfree⟩

theorem State.accept_noResponse {s : State} (h : ∀ p ∈ s.ports, p.rsp = none) (r : Nat) (w : Word) :
    ∀ p ∈ (s.accept r w).ports, p.rsp = none := by
  refine noResponse_of_responses_eq (List.ext_getElem? fun q => ?_) h
  by_cases hq : r = q <;> simp [hq, Function.comp_def]

theorem State.answerIllegal_inv {s : State} (r : Nat) (w : Word) (hfree : ∀ p ∈ s.ports, p.rsp = none)
    (h : s.inv = true) : (s.accept r w).answerIllegal.inv = true :=
  State.done_inv _ (State.inv_mem_wf (s := s) h) (by simpa using State.inv_ports h) (State.accept_noResponse hfree r w)

/-- The accepted command stands at its first step, its operands latched (R70, R74). -/
theorem State.started_inv {s : State} {r : Nat} {w : Word} {i : Instr} (hfree : ∀ p ∈ s.ports, p.rsp = none)
    (harb : s.arbitrate = some (r, w)) (hi : decode w = .ok i) (h : s.inv = true) :
    ((s.accept r w).started i).inv = true := by
  refine (State.inv_iff_busy (State.started_seq i _)).mpr ⟨?_, ?_, ?_, ?_, ?_⟩
  · simpa using State.inv_mem_wf h
  · simpa using State.inv_ports h
  · rw [State.started_grant, State.started_ports]
    exact State.accept_ownerWaits harb
  · exact commandInFlight_iff.mpr
      ⟨i, by simpa using hi, rfl, le_refl 1, one_le_lastStep i.op, State.started_operands i _⟩
  · rw [State.started_ports]
    exact responsesPresented_eq_zero.mpr (State.accept_noResponse hfree r w)

/-- After an event that does not complete the command, `SEQ` names a step of it and its operands are still
latched (R30, R74). -/
theorem EventResult.commandInFlight {i : Instr} {s t : State} {op : Op} {k : Nat} (he : EventResult i s t)
    (hi : decode s.latch.cmd = .ok i) (hq : s.seq = .busy op k) (h : commandInFlight s.latch op k = true)
    (ht : t.seq ≠ .idle) : ∃ j, t.seq = .busy op j ∧ Machine.commandInFlight t.latch op j = true := by
  obtain ⟨j, hj, hop, h1, hl, hoperands⟩ := commandInFlight_iff.mp h
  obtain rfl : i = j := by simpa [hi] using hj
  have hdec : decode t.latch.cmd = .ok i := (he.of_inFlight ht).1 ▸ hi
  cases he with
  | completed c h => simp [h] at ht
  | outstanding _ _ c _ _ _ h => exact ⟨k, by rw [h]; exact hq, by rw [h]; assumption⟩
  | returned op' k' c f a hq' _ _ _ hf _ h =>
    obtain ⟨rfl, rfl⟩ : op = op' ∧ k = k' := by simpa [hq] using hq'
    subst h
    have hlatched := hf.operands a.ret (s.returned c a) hoperands
    rcases hf.goesOn a.ret (s.returned c a) with ⟨hseq, -, hlt⟩ | ⟨hseq, -⟩
    · refine ⟨k + 1, by rw [hseq, State.returned_seq, hq]; rfl, ?_⟩
      exact commandInFlight_iff.mpr ⟨i, hdec, hop, by omega, hop ▸ hlt, hlatched⟩
    · exact ⟨k, hseq.trans hq, commandInFlight_iff.mpr ⟨i, hdec, hop, h1, hl, hlatched⟩⟩

theorem EventResult.mem_wf {i : Instr} {s t : State} (he : EventResult i s t)
    (h : s.env.chip.mem.wf = true) : t.env.chip.mem.wf = true := by
  rcases he.env with ht | ⟨c, a, ha, ht⟩
  · rwa [ht]
  · rw [ht]; exact Env.answer_wf h ha

theorem EventResult.inv {i : Instr} {s t : State} (he : EventResult i s t) (hs : s.seq ≠ .idle)
    (hi : decode s.latch.cmd = .ok i) (h : s.inv = true) : t.inv = true := by
  cases hq : s.seq with
  | idle => exact absurd hq hs
  | busy op k =>
    obtain ⟨hmem, hlen, howner, hcmd, hfree⟩ := (State.inv_iff_busy hq).mp h
    by_cases ht : t.seq = .idle
    · obtain ⟨c, rfl⟩ := he.done_of_idle hs ht
      exact State.done_inv c hmem hlen (responsesPresented_eq_zero.mp hfree)
    · obtain ⟨-, hgrant, hports⟩ := he.of_inFlight ht
      obtain ⟨j, hj, hcmd'⟩ := he.commandInFlight hi hq hcmd ht
      exact (State.inv_iff_busy hj).mpr
        ⟨he.mem_wf hmem, hports ▸ hlen, hgrant ▸ hports ▸ howner, hcmd', hports ▸ hfree⟩

theorem State.pass_inv {s : State} (h : s.inv = true) : s.pass.inv = true := by
  rw [State.pass_frame]
  exact h

/-- Settles O43: every part of a step keeps the invariant. -/
theorem stepKeepsTheInvariant : Obligations.StepKeepsTheInvariant := by
  intro s t
  exact step_induction (P := fun u => u.inv = true)
    (take := fun _ => State.takeResponses_inv)
    (others := fun _ => State.otherAgents_inv)
    (pass := fun _ _ => State.pass_inv)
    (illegal := fun _ r w _ => State.answerIllegal_inv r w)
    (accepted := fun _ _ _ _ _ => State.started_inv)
    (event := fun _ _ _ hq hi h he => he.inv hq hi h)

/-! ## A state with the invariant does not stray (R30, R34) -/

/-- `SEQ` names a step of the command in `CMD`, so the command has an event. -/
theorem State.resume_allowed {s : State} {op : Op} {k : Nat} (quiet : Bool) (hq : s.seq = .busy op k)
    (h : commandInFlight s.latch op k = true) :
    (∃ t, s.resume quiet = .next t) ∨ s.resume quiet = .fault .busNeverReturns := by
  obtain ⟨i, hi, rfl, h1, hl, -⟩ := commandInFlight_iff.mp h
  rcases event_cases i s (by simp [hq]) with
    ⟨c, hc⟩ | ⟨-, -, op, j, hj, hout⟩ | ⟨_, _, c, f, -, -, -, -, -, -, ⟨-, hc⟩ | ⟨a, -, hc⟩⟩
  · exact .inl ⟨_, State.resume_moved hi hq hc⟩
  · obtain ⟨rfl, rfl⟩ : i.op = op ∧ k = j := by simpa [hq] using hj
    omega
  · cases quiet
    · exact .inl ⟨_, State.resume_waiting hi hq hc⟩
    · exact .inr (State.resume_waiting hi hq hc)
  · exact .inl ⟨_, State.resume_moved hi hq hc⟩

/-- Settles O44: in IDLE there is always a next state, and in flight the command has an event. -/
theorem stepNeverStrays : Obligations.StepNeverStrays := by
  intro s h
  have hu := State.otherAgents_inv (State.takeResponses_inv h)
  rw [State.stepAllowed]
  cases hq : s.takeResponses.otherAgents.seq with
  | idle => rw [step_idle hq]; exact .inl (State.accepted_next _)
  | busy op k =>
    obtain ⟨-, -, -, hcmd, -⟩ := (State.inv_iff_busy hq).mp hu
    rw [step_busy hq]
    exact State.resume_allowed _ hq hcmd

end Sys2Proof.Machine
end

section
/-! PROOFS. The recorded primitives over a step (R65, R66, R135): an event appends the call its step names, and
everything else a step is made of leaves the record alone or starts it anew. -/
namespace Sys2Proof.Machine

theorem State.ordered_iff_idle {s : State} (hq : s.seq = .idle) :
    s.ordered ↔ s.bus = none ∧ ∃ i, s.trace.map (·.call) <+: callsOf s.years i := by
  simp [State.ordered, hq]

theorem State.ordered_iff_busy {s : State} {op : Op} {k : Nat} {i : Instr} (hq : s.seq = .busy op k)
    (hi : decode s.latch.cmd = .ok i) : s.ordered ↔
      s.trace.map (·.call) = (callsOf s.years i).take (s.latch.returned k) ∧
      ∀ c, s.bus = some c → (callsOf s.years i)[s.latch.returned k]? = some c := by
  simp [State.ordered, hq, hi]

/-- In flight as in IDLE the record is the beginning of some command's list. -/
theorem State.ordered_record {s : State} (h : s.ordered) :
    ∃ i, s.trace.map (·.call) <+: callsOf s.years i := by
  cases hq : s.seq with
  | idle => exact ((State.ordered_iff_idle hq).mp h).2
  | busy op k =>
    simp only [State.ordered, hq] at h
    obtain ⟨i, -, htrace, -⟩ := h
    exact ⟨i, htrace ▸ List.take_prefix _ _⟩

theorem State.otherAgents_ordered {s : State} (h : s.ordered) : s.otherAgents.ordered := by
  rcases s.otherAgents_cases with ⟨hidle, -, -, hbus, htrace, hyears, -⟩ | hframe
  · refine (State.ordered_iff_idle hidle).mpr ⟨hbus, ?_⟩
    rw [htrace, hyears]
    exact State.ordered_record h
  · rw [hframe]
    exact h

theorem State.pass_ordered {s : State} (h : s.ordered) : s.pass.ordered := by
  rw [State.pass_frame]
  exact h

theorem State.answerIllegal_ordered (s : State) (r : Nat) (w : Word) : (s.accept r w).answerIllegal.ordered :=
  (State.ordered_iff_idle rfl).mpr ⟨rfl, .get, List.nil_prefix⟩

/-- The record starts anew with each command (R70). -/
theorem State.started_ordered {s : State} {w : Word} {i : Instr} (r : Nat) (hi : decode w = .ok i)
    (hbus : s.bus = none) : ((s.accept r w).started i).ordered :=
  (State.ordered_iff_busy (i := i) (State.started_seq i _) (by simpa using hi)).mpr
    (by simp [Latches.returned, hbus])

/-- The call of step `k` is the next of the list after those of the steps before it. -/
theorem State.ordered_append {s : State} {op : Op} {k : Nat} {i : Instr} {c : BusCall}
    (hq : s.seq = .busy op k) (hi : decode s.latch.cmd = .ok i) (hdue : s.latch.due = none) (hk : 1 ≤ k)
    (hcall : (callsOf s.years i)[k - 1]? = some c) (h : s.ordered) :
    s.trace.map (·.call) ++ [c] = (callsOf s.years i).take k := by
  obtain ⟨htrace, -⟩ := (State.ordered_iff_busy hq hi).mp h
  have hbefore : s.latch.returned k = k - 1 := if_pos hdue
  calc s.trace.map (·.call) ++ [c]
      = (callsOf s.years i).take (k - 1) ++ (callsOf s.years i)[k - 1]?.toList := by
        rw [htrace, hbefore, hcall]; rfl
    _ = (callsOf s.years i).take (k - 1 + 1) := List.take_add_one.symm
    _ = (callsOf s.years i).take k := by rw [Nat.sub_add_cancel hk]

theorem EventResult.ordered {i : Instr} {s t : State} (he : EventResult i s t) (hs : s.seq ≠ .idle)
    (hi : decode s.latch.cmd = .ok i) (hlatched : operandsLatched i s.latch = true) (h : s.ordered) :
    t.ordered := by
  by_cases ht : t.seq = .idle
  · obtain ⟨c, rfl⟩ := he.done_of_idle hs ht
    exact (State.ordered_iff_idle ht).mpr ⟨rfl, State.ordered_record (s := s) h⟩
  · have hdec : decode t.latch.cmd = .ok i := (he.of_inFlight ht).1 ▸ hi
    cases he with
    | completed c hdone => simp [hdone] at ht
    | outstanding op k c hq hdue hcall hwait =>
      subst hwait
      have hbefore : s.latch.returned k = k - 1 := if_pos hdue
      refine (State.ordered_iff_busy (s := { s with bus := some c }) hq hi).mpr
        ⟨((State.ordered_iff_busy hq hi).mp h).1, ?_⟩
      rintro _ ⟨rfl⟩
      exact hbefore ▸ hcall hlatched
    | returned op k c f a hq hdue hk hcall hf _ hmoved =>
      subst hmoved
      cases hj : (f a.ret (s.returned c a)).seq with
      | idle => exact absurd hj ht
      | busy op' j =>
        refine (State.ordered_iff_busy hj hdec).mpr ⟨?_, by simp [hf.bus]⟩
        rw [hf.returned_eq (s := s.returned c a) a.ret hq hdue hj, hf.trace, hf.years]
        simpa [busEvent] using State.ordered_append hq hi hdue hk.1 (hcall hlatched) h

/-- In flight the operands of the command in `CMD` are latched (R20, R74). -/
theorem State.inv_operands {s : State} {i : Instr} (h : s.inv = true) (hs : s.seq ≠ .idle)
    (hi : decode s.latch.cmd = .ok i) : operandsLatched i s.latch = true := by
  cases hq : s.seq with
  | idle => exact absurd hq hs
  | busy op k =>
    obtain ⟨-, -, -, hcmd, -⟩ := (State.inv_iff_busy hq).mp h
    obtain ⟨j, hj, -, -, -, hlatched⟩ := commandInFlight_iff.mp hcmd
    obtain rfl : i = j := by simpa [hi] using hj
    exact hlatched

/-- In IDLE no primitive is outstanding (R37). -/
theorem State.inv_bus {s : State} (h : s.inv = true) (hq : s.seq = .idle) : s.bus = none := by
  obtain ⟨-, -, ⟨-, -, hbus⟩, -⟩ := (State.inv_iff_idle hq).mp h
  exact hbus

/-- Settles O56: every part of a step keeps the order of the record, the invariant telling which operands the
calls carry. -/
theorem stepKeepsPrimitivesInOrder : Obligations.StepKeepsPrimitivesInOrder := by
  intro s t hinv hordered hstep
  exact (step_induction (P := fun u => u.inv = true ∧ u.ordered)
    (take := fun _ ⟨h, ho⟩ => ⟨State.takeResponses_inv h, ho⟩)
    (others := fun _ ⟨h, ho⟩ => ⟨State.otherAgents_inv h, State.otherAgents_ordered ho⟩)
    (pass := fun _ _ ⟨h, ho⟩ => ⟨State.pass_inv h, State.pass_ordered ho⟩)
    (illegal := fun u r w _ hfree ⟨h, _⟩ =>
      ⟨State.answerIllegal_inv r w hfree h, State.answerIllegal_ordered u r w⟩)
    (accepted := fun _ r _ _ hq hfree harb hi ⟨h, _⟩ =>
      ⟨State.started_inv hfree harb hi h, State.started_ordered r hi (State.inv_bus h hq)⟩)
    (event := fun _ _ _ hq hi ⟨h, ho⟩ he =>
      ⟨he.inv hq hi h, he.ordered hq hi (State.inv_operands h hq hi) ho⟩)
    ⟨hinv, hordered⟩ hstep).2

end Sys2Proof.Machine
end

section
/-! PROOFS. The arbiter and the acceptance (R70, R72, R74): who can be picked, what acceptance leaves, and the step
that runs the accepted command. -/
namespace Sys2Proof.Machine

/-! ## The arbiter's choice -/

/-- Who waits, and with which word: exactly the command ports that hold one (R70). -/
theorem mem_waitingFrom_zero {ports : List Port} {r : Nat} {w : Word} :
    (r, w) ∈ waitingFrom 0 ports ↔ ports[r]?.map (·.cmd) = some (some w) := by
  refine ⟨fun h => (waitingFrom_mem h).2, fun h => ?_⟩
  suffices ∀ k, (k + r, w) ∈ waitingFrom k ports by simpa using this 0
  induction ports generalizing r with
  | nil => simp at h
  | cons p ps ih =>
    intro k
    cases r with
    | zero =>
      have hp : p.cmd = some w := by simpa using h
      simp [waitingFrom, hp]
    | succ r =>
      have htail : (k + (r + 1), w) ∈ waitingFrom (k + 1) ps := by
        rw [show k + (r + 1) = k + 1 + r by omega]
        exact ih (by simpa using h) (k + 1)
      simp only [waitingFrom]
      split
      · exact htail
      · exact List.mem_cons_of_mem _ htail

/-- A requester waits with one word only, so its number finds that word. -/
theorem waitingFrom_find {ports : List Port} {r : Nat} {w : Word} (h : (r, w) ∈ waitingFrom 0 ports) :
    (waitingFrom 0 ports).find? (fun y => y.1 == r) = some (r, w) := by
  cases hfind : (waitingFrom 0 ports).find? (fun y => y.1 == r) with
  | none => simpa using List.find?_eq_none.mp hfind _ h
  | some y =>
    obtain ⟨q, v⟩ := y
    obtain rfl : q = r := by simpa using List.find?_some hfind
    have hv := mem_waitingFrom_zero.mp (List.mem_of_find?_eq_some hfind)
    rw [mem_waitingFrom_zero.mp h] at hv
    simpa [eq_comm] using hv

theorem State.arbitrate_nobody {s : State} (h : waitingFrom 0 s.ports = []) : s.arbitrate = none := by
  simp [State.arbitrate, h]

/-- The arbiter may pick nobody although somebody waits (R72). -/
theorem State.arbitrate_passes {s : State} {rest : List (Option Nat)} (h : s.choices = none :: rest) :
    s.arbitrate = none := by
  cases hwait : waitingFrom 0 s.ports <;> simp [State.arbitrate, hwait, h]

/-- The coming choice is picked where it waits (R70). -/
theorem State.arbitrate_named {s : State} {r : Nat} {w : Word} {rest : List (Option Nat)}
    (h : s.choices = some r :: rest) (hw : (r, w) ∈ waitingFrom 0 s.ports) : s.arbitrate = some (r, w) := by
  have hfind := waitingFrom_find hw
  cases hwait : waitingFrom 0 s.ports with
  | nil => simp [hwait] at hw
  | cons x xs =>
    rw [hwait] at hfind
    simp [State.arbitrate, hwait, h, hfind]

/-- Settles O38: those that wait are exactly the command ports that hold a word. -/
theorem arbiterPicksAWaitingRequester : Obligations.ArbiterPicksAWaitingRequester := by
  intro s
  refine ⟨fun r w h => ?_, fun h => ?_, fun r w rest hport hchoice => ?_⟩
  · exact mem_waitingFrom_zero.mp (State.arbitrate_mem h).1
  · exact State.arbitrate_nobody (waitingFrom_nobody h)
  · exact State.arbitrate_named hchoice (mem_waitingFrom_zero.mpr hport)

theorem waitingFrom_ne_nil {ports : List Port} (h : ∃ p ∈ ports, p.cmd ≠ none) :
    waitingFrom 0 ports ≠ [] := by
  obtain ⟨p, hp, hcmd⟩ := h
  obtain ⟨w, hw⟩ := Option.ne_none_iff_exists'.mp hcmd
  obtain ⟨r, hr⟩ := List.mem_iff_getElem?.mp hp
  exact List.ne_nil_of_mem (mem_waitingFrom_zero.mpr (by rw [hr, Option.map_some, hw]))

/-- Where somebody waits, passing over them uses up one coming choice and one draw (log 9). -/
theorem State.pass_somebody {s : State} (h : waitingFrom 0 s.ports ≠ []) :
    s.pass = { s with choices := s.choices.tail, draws := s.draws + 1 } := by
  unfold State.pass
  split
  · exact absurd ‹_› h
  · rfl

/-! ## The step from IDLE -/

theorem State.accepted_nobodyPicked {s : State} (h : s.arbitrate = none) : s.accepted = .next s.pass := by
  simp [State.accepted, h]

theorem State.accepted_command {s : State} {r : Nat} {w : Word} {i : Instr} (h : s.arbitrate = some (r, w))
    (hi : decode w = .ok i) : s.accepted = exec i (s.accept r w) := by
  simp [State.accepted, h, hi]

/-- In IDLE with nobody else moving, a step is what the arbiter's choice leads to (R70). -/
theorem step_idle_quiet {s : State} (ha : s.agenda = []) (hq : s.seq = .idle) :
    step s = s.takeResponses.accepted := by
  have hothers : s.takeResponses.otherAgents = s.takeResponses := State.otherAgents_quiet ha
  rw [step_idle (by rw [hothers]; exact hq), hothers]

/-- Settles O39: a coming choice that names the requester picks it, and one that names nobody is passed over. -/
theorem arbiterAdmitsEveryChoice : Obligations.ArbiterAdmitsEveryChoice := by
  refine ⟨fun s r w hport => ⟨[some r], ?_⟩, fun s n ha hq hwaits => ?_⟩
  · exact State.arbitrate_named rfl (mem_waitingFrom_zero.mpr hport)
  · have hsomebody : waitingFrom 0 s.takeResponses.ports ≠ [] := waitingFrom_ne_nil (by simpa using hwaits)
    calc step { s with choices := List.replicate (n + 1) none }
        = State.accepted (State.takeResponses { s with choices := List.replicate (n + 1) none }) :=
          step_idle_quiet ha hq
      _ = .next (State.pass _) := State.accepted_nobodyPicked (State.arbitrate_passes rfl)
      _ = _ := congrArg _ (State.pass_somebody hsomebody)

/-- Settles O6: with nobody else moving, the step accepts the arbiter's choice and executes it. -/
theorem stepRunsTheAcceptedCommand : Obligations.StepRunsTheAcceptedCommand := by
  intro s r w i ha hq harb hi
  rw [step_idle_quiet ha hq]
  exact State.accepted_command harb hi

/-- Settles O7: acceptance writes the grant, the latches and one port, which is there since its requester waits. -/
theorem acceptanceGrantsAndLatches : Obligations.AcceptanceGrantsAndLatches := by
  intro s r w harb
  obtain ⟨_, ⟨rfl⟩, hfreed⟩ := ownerWaits_iff.mp (State.accept_ownerWaits harb)
  refine ⟨rfl, rfl, hfreed, fun q hq => ?_, rfl, rfl⟩
  simp [Ne.symm hq]

/-! ## A command word placed for the next step (log 7) -/

/-- The state in which the word placed by `withCommand` is accepted. -/
def State.placed (s : State) (w : Word) : State := (s.withCommand w).takeResponses.otherAgents.accept 0 w

section placed
variable (s : State) (w : Word)
@[simp] theorem State.placed_presence : (s.placed w).presence = s.presence := rfl
@[simp] theorem State.placed_grant : (s.placed w).grant = some 0 := rfl
@[simp] theorem State.placed_cmd : (s.placed w).latch.cmd = w := rfl
@[simp] theorem State.placed_trace : (s.placed w).trace = [] := rfl
@[simp] theorem State.placed_env : (s.placed w).env = s.env := rfl
@[simp] theorem State.placed_agenda : (s.placed w).agenda = s.agenda := rfl
@[simp] theorem State.placed_years : (s.placed w).years = s.years := rfl

theorem State.placed_port : 0 < (s.placed w).ports.length := by
  unfold State.placed State.withCommand
  cases s.ports <;> simp [State.otherAgents, holdWord]
end placed

/-- Requester 0 waits with the word that is placed, which the other agents do not move before. -/
theorem State.withCommand_waiting (s : State) (w : Word) :
    (0, w) ∈ waitingFrom 0 (s.withCommand w).takeResponses.otherAgents.ports := by
  rw [mem_waitingFrom_zero]
  unfold State.withCommand
  cases s.ports <;> rfl

/-- The very next step runs the word that is placed. -/
theorem step_withCommand {s : State} {w : Word} {i : Instr} (hi : decode w = .ok i) :
    step (s.withCommand w) = exec i (s.placed w) := by
  rw [step_idle rfl]
  exact State.accepted_command (State.arbitrate_named rfl (s.withCommand_waiting w)) hi

/-- Settles O10: requester 0 waits with the word and is the coming choice. -/
theorem fetchWordRunsNext : Obligations.FetchWordRunsNext :=
  fun s _ _ hi => ⟨s.placed _, rfl, rfl, rfl, rfl, rfl, step_withCommand hi⟩

/-! ## The ports while a command runs (R70, R71) -/

/-- A requester that presents a word writes over none (R191). -/
theorem State.present_keepsWord {s : State} {q : Nat} {v : Word}
    (h : s.ports[q]?.map (·.cmd) = some (some v)) (r : Nat) (w : Word) :
    (s.present r w).ports[q]?.map (·.cmd) = some (some v) := by
  unfold State.present
  split
  · exact h
  · obtain ⟨p, hp, hcmd⟩ := Option.map_eq_some_iff.mp h
    by_cases hr : r = q <;> simp [hr, hp, hcmd]

theorem State.otherMove_keepsWord {s : State} {q : Nat} {v : Word} (m : Move)
    (h : s.ports[q]?.map (·.cmd) = some (some v)) :
    (s.otherMove m).ports[q]?.map (·.cmd) = some (some v) := by
  rcases s.otherMove_cases m with ⟨-, hrst⟩ | ⟨-, -, hports | ⟨r, w, rfl⟩⟩
  · simpa [hrst, Function.comp_def] using h
  · rwa [hports]
  · exact State.present_keepsWord h r w

theorem State.otherAgents_keepsWord {s : State} {q : Nat} {v : Word}
    (h : s.ports[q]?.map (·.cmd) = some (some v)) :
    s.otherAgents.ports[q]?.map (·.cmd) = some (some v) :=
  State.otherAgents_keeps (fun u => u.ports[q]?.map (·.cmd) = some (some v)) (fun _ _ h => h)
    (fun _ m => State.otherMove_keepsWord m) h

/-- An event changes no command port: a completion writes a response, and nothing else writes the ports. -/
theorem EventResult.commandPort {i : Instr} {s t : State} (he : EventResult i s t) (hq : s.seq ≠ .idle)
    (q : Nat) : t.ports[q]?.map (·.cmd) = s.ports[q]?.map (·.cmd) := by
  by_cases ht : t.seq = .idle
  · obtain ⟨c, rfl⟩ := he.done_of_idle hq ht
    exact deliver_cmd ..
  · rw [(he.of_inFlight ht).2.2]

/-- Settles O35: neither the other agents nor an event of the command takes a word from a command port. -/
theorem waitingRequestersKeepTheirWords : Obligations.WaitingRequestersKeepTheirWords := by
  intro i s t r w hport hexec
  exact exec_induction (P := fun u => u.ports[r]?.map (·.cmd) = some (some w))
    (fun _ _ => State.otherAgents_keepsWord)
    (fun _ _ hq h he => (he.commandPort hq r).trans h) (by simpa using hport) hexec

end Sys2Proof.Machine
end

section
/-! PROOFS. The primitives of one execution, in the order of the step list (R65, R66, R135), and the address they
carry (R50). -/
namespace Sys2Proof.Machine

/-- The calls issued are the first ones of command `i`'s list, the outstanding one included; in flight those that
have returned are exactly the ones before where `SEQ` stands, and the operands are latched. -/
structure State.Follows (i : Instr) (s : State) : Prop where
  issued : s.trace.map (·.call) ++ s.bus.toList <+: callsOf s.years i
  inFlight : ∀ op k, s.seq = .busy op k → operandsLatched i s.latch = true ∧
    s.trace.map (·.call) = (callsOf s.years i).take (s.latch.returned k)

/-- The calls that have returned are the first ones too. -/
theorem State.Follows.record {i : Instr} {s : State} (h : s.Follows i) :
    s.trace.map (·.call) <+: callsOf s.years i :=
  (List.prefix_append _ _).trans h.issued

theorem State.started_follows {i : Instr} {s : State} (htrace : s.trace = []) (hbus : s.bus = none) :
    (s.started i).Follows i where
  issued := by simp [htrace, hbus]
  inFlight op k hq := by
    obtain ⟨rfl, rfl⟩ : i.op = op ∧ 1 = k := by simpa using hq
    simp [htrace, Latches.returned]

theorem State.otherAgents_follows {i : Instr} {s : State} (h : s.Follows i) : s.otherAgents.Follows i := by
  rcases s.otherAgents_cases with ⟨hidle, -, -, hbus, htrace, hyears, -⟩ | hframe
  · exact ⟨by simpa [hbus, htrace, hyears] using h.record, fun op k hq => by simp [hidle] at hq⟩
  · rw [hframe]
    exact ⟨h.issued, h.inFlight⟩

/-- The call that step `k` names comes next after those that have returned. -/
theorem State.Follows.append {i : Instr} {s : State} {op : Op} {k : Nat} {c : BusCall} (h : s.Follows i)
    (hq : s.seq = .busy op k) (hdue : s.latch.due = none)
    (hcall : operandsLatched i s.latch = true → (callsOf s.years i)[k - 1]? = some c) :
    s.trace.map (·.call) ++ [c] = (callsOf s.years i).take (k - 1 + 1) := by
  obtain ⟨hlatched, hrecord⟩ := h.inFlight op k hq
  have hbefore : s.latch.returned k = k - 1 := if_pos hdue
  rw [hrecord, hbefore, List.take_add_one, hcall hlatched]
  rfl

theorem EventResult.follows {i : Instr} {s t : State} (he : EventResult i s t) (h : s.Follows i) :
    t.Follows i := by
  cases he with
  | completed c hdone =>
    subst hdone
    exact ⟨by simpa using h.record, nofun⟩
  | outstanding op k c hq hdue hcall hwait =>
    subst hwait
    exact ⟨h.append hq hdue hcall ▸ List.take_prefix _ _, h.inFlight⟩
  | returned op k c f a hq hdue hk hcall hf _ hmoved =>
    subst hmoved
    have hnow : (s.trace ++ [busEvent c a.ret]).map (·.call) = (callsOf s.years i).take k := by
      rw [List.map_append, ← Nat.sub_add_cancel hk.1]
      exact h.append hq hdue hcall
    refine ⟨?_, fun op' j hj => ⟨hf.operands _ _ (h.inFlight op k hq).1, ?_⟩⟩
    · rw [hf.trace, hf.bus, hf.years, State.returned_trace, hnow]
      simpa using List.take_prefix k _
    · rw [hf.returned_eq (s := s.returned c a) a.ret hq hdue hj, hf.trace, hf.years]
      exact hnow

/-- Settles O28: the events of an execution issue the calls in the order of the list, and the other agents issue
none. -/
theorem primitivesFollowTheStepList : Obligations.PrimitivesFollowTheStepList := by
  intro i s t htrace hbus hexec
  have hfollows : t.Follows i := exec_induction (P := State.Follows i)
    (fun _ _ => State.otherAgents_follows) (fun _ _ _ h he => he.follows h)
    (State.started_follows htrace hbus) hexec
  rw [← (exec_sameParameters hexec).2]
  exact hfollows.issued

/-- No operation names another address (R50, R51, R54). -/
theorem callsOf_addrLines (years : YearMap) (i : Instr) :
    ∀ c ∈ callsOf years i, c.addrLines = none ∨ c.addrLines = some 0x68 := by
  cases i <;>
    simp [callsOf, timeReadCalls, stopCalls, restartCalls, registerReadCalls, calWriteCalls, BusCall.addrLines]

/-- Settles O29: the primitives are those of the step list, and no step list names another address. -/
theorem deviceAddressNeverVaries : Obligations.DeviceAddressNeverVaries := by
  intro i s t htrace hbus hexec c hc
  exact callsOf_addrLines s.years i c ((primitivesFollowTheStepList i s t htrace hbus hexec).subset hc)

end Sys2Proof.Machine
end

section
/-! PROOFS. The chip and the reference environment ENV-H (R60, R76 to R81): the tick, the write transaction and the
burst. -/
namespace Sys2Proof.Machine

/-! ## The chip's own steps (R80, R81) -/

/-- The halt flag is bit 7 of the seconds byte (R60). -/
theorem haltFlag_eq (b : Byte) : haltFlag b = b.getLsbD 7 := by
  have hmask : ∀ b : Byte, (b &&& Config.haltMask ≠ 0) ↔ b.getLsbD 7 = true := by decide
  rw [Bool.eq_iff_iff, haltFlag, decide_eq_true_iff, hmask]

theorem Chip.tick_halted {c : Chip} (t : RawBytes) (h : haltFlag (c.mem.read 0) = true) : c.tick t = c :=
  if_pos h

theorem Chip.tick_running {c : Chip} (t : RawBytes) (h : haltFlag (c.mem.read 0) = false) :
    c.tick t = { c with mem := c.mem.storeTime { t with b0 := t.b0 &&& Config.secMask } } :=
  if_neg (by simp [Config.regTimeBase, h])

/-- Settles O49: the tick looks at bit 7 of register 0x00 first. -/
theorem haltedChipHasNoStep : Obligations.HaltedChipHasNoStep :=
  fun _ time h => Chip.tick_halted time ((haltFlag_eq _).trans h)

/-- A burst inside the registers is their contents, in order (R68, R76). -/
theorem Memory.burst_eq_map_read (m : Memory) (a d k : Nat) (h : a + k ≤ Config.nChipRegs) :
    m.burst a d k = (List.range k).map fun j => m.read (a + j) := by
  induction k generalizing a d with
  | zero => rfl
  | succ k ih =>
    have ha : a < Config.nChipRegs := by omega
    rw [Memory.burst, if_pos ha, ih (a + 1) (d + 1) (by omega), List.range_succ_eq_map]
    simp [Function.comp_def, Nat.add_assoc, Nat.add_comm 1]

/-- The eight registers after the time registers were written (R80). -/
theorem Memory.burst_storeTime {m : Memory} (t : RawBytes) (d : Nat) (h : m.wf = true) :
    (m.storeTime t).burst 0 d 8 = [t.b0, t.b1, t.b2, t.b3, t.b4, t.b5, t.b6, m.read 7] := by
  have hinside (j : Nat) (hj : j < 7) :
      (m.storeTime t).read j = [t.b0, t.b1, t.b2, t.b3, t.b4, t.b5, t.b6][j] := by
    have hread := Memory.read_storeAll 0 j [t.b0, t.b1, t.b2, t.b3, t.b4, t.b5, t.b6] h hj
      (by simp only [Config.nChipRegs]; omega)
    rwa [Nat.zero_add] at hread
  have hlast : (m.storeTime t).read 7 = m.read 7 :=
    Memory.read_storeAll_other 0 7 _ h (.inr (le_refl 7))
  rw [Memory.burst_eq_map_read _ 0 d 8 (le_refl 8)]
  simp [List.range_succ, hinside, hlast]

/-- Settles O50: a running chip stores the seven bytes, bit 7 of the first one cleared. -/
theorem runningChipTicks : Obligations.RunningChipTicks := by
  intro c time hmem hbit
  rw [Chip.tick_running time ((haltFlag_eq _).trans hbit)]
  exact ⟨Memory.burst_storeTime _ 0 hmem, rfl⟩

/-! ## One primitive of a conversation -/

section converse
variable {e : Env} {d : Nat} {c : BusCall} {a : Answer} (ha : e.answer c d = some a) (cs : List BusCall)
include ha

/-- A primitive without a result adds none to the conversation's. -/
theorem Env.converse_cons_plain (hc : c.hasResult = false) :
    e.converse d (c :: cs) = a.env.converse a.draws cs := by
  simp only [Env.converse, ha, hc]
  cases a.env.converse a.draws cs <;> rfl

/-- The result of a primitive comes before those of the rest. -/
theorem Env.converse_cons_result (hc : c.hasResult = true) :
    e.converse d (c :: cs) = (a.env.converse a.draws cs).map fun x => (a.ret :: x.1, x.2) := by
  simp only [Env.converse, ha, hc]
  cases a.env.converse a.draws cs <;> rfl

end converse

/-! ## The primitives under ENV-H (R77, R78) -/

section healthy
variable {e : Env} (h : e.kind = .healthy) (d : Nat)
include h

theorem Env.answer_healthy (c : BusCall) : e.answer c d = some (e.reference c d) :=
  Env.answer_of_reference (by simp [h]) c d

theorem Env.answer_busClose_healthy : e.answer .busClose d = some ⟨0, e.closeOk, d⟩ := by
  rw [Env.answer_healthy h]
  simp only [Env.reference, h]

theorem Env.answer_busRequest_healthy (a : BusAddr) (k : Byte) :
    e.answer (.busRequest a k) d = some ⟨k, e.fill d k.toNat k.toNat, d + k.toNat⟩ := by
  rw [Env.answer_healthy h]
  simp only [Env.reference, h]

theorem Env.answer_busRead_healthy : e.answer .busRead d = some (e.take d) := Env.answer_healthy h d .busRead

/-- The bytes of successive writes are queued in order. -/
theorem Env.converse_busWrites (ds : List Byte) (cs : List BusCall) :
    e.converse d (ds.map BusCall.busWrite ++ cs) = Env.converse { e with queue := e.queue ++ ds } d cs := by
  induction ds generalizing e with
  | nil => simp
  | cons b ds ih =>
    have hqueued := ih (e := { e with queue := e.queue ++ [b] }) h
    rw [List.append_assoc] at hqueued
    exact (Env.converse_cons_plain (Env.answer_healthy h d _) _ rfl).trans hqueued

/-- A transaction up to its close: the queue holds its bytes and nothing of it has reached the chip. -/
theorem Env.converse_transaction (a : BusAddr) (p : Byte) (ds : List Byte) (cs : List BusCall) :
    e.converse d (.busOpen a :: .busWrite p :: (ds.map BusCall.busWrite ++ cs)) =
      Env.converse { e with queue := p :: ds } d cs := by
  have hqueued := Env.converse_busWrites (e := { e with queue := [] }) h d (p :: ds) cs
  exact (Env.converse_cons_plain (Env.answer_healthy h d _) _ rfl).trans hqueued

/-- Reads take the bytes that are buffered, in order (R78). -/
theorem Env.converse_busReads (bs : List Byte) :
    Env.converse { e with buffer := bs } d (List.replicate bs.length .busRead) =
      some (bs, { e with buffer := [] }, d) := by
  induction bs with
  | nil => rfl
  | cons b bs ih =>
    have htake := Env.answer_busRead_healthy (e := { e with buffer := b :: bs }) h d
    rw [List.length_cons, List.replicate_succ, Env.converse_cons_result htake _ rfl]
    exact congrArg (Option.map _) ih

end healthy

/-- Settles O47: the writes only queue, and the close stores the queue from its first byte on. -/
theorem healthyCloseAppliesTheQueue : Obligations.HealthyCloseAppliesTheQueue := by
  intro e d p ds hkind hmem hlen
  have hqueued := Env.converse_transaction hkind d 0x68 p ds
  have hclose := Env.answer_busClose_healthy (e := { e with queue := p :: ds }) hkind d
  refine ⟨?_, Env.closeOk { e with queue := p :: ds }, ?_, hkind, rfl, rfl, rfl, fun j b hb => ?_,
    fun a ha => Memory.read_storeAll_other _ a ds hmem ha⟩
  · rw [← List.append_nil (ds.map _)]
    exact hqueued []
  · exact (hqueued [.busClose]).trans (Env.converse_cons_result hclose [] rfl)
  · obtain ⟨hj, rfl⟩ := List.getElem?_eq_some_iff.mp hb
    exact Memory.read_storeAll _ j ds hmem hj (by simp only [Config.nChipRegs]; omega)

/-- Settles O48: the request fills the buffer, and the reads look at nothing but the buffer. -/
theorem healthyBurstSamplesTheRegisters : Obligations.HealthyBurstSamplesTheRegisters := by
  refine ⟨fun e d k hkind hinside => ?_, fun e d b bs hkind hbuf => ?_, fun e d hkind hbuf => ?_⟩
  · have hrequest := Env.answer_busRequest_healthy hkind d 0x68 k
    have hburst := Memory.burst_eq_map_read e.chip.mem e.chip.ptr d k.toNat hinside
    have hreads := Env.converse_busReads
      (e := { e with chip := { e.chip with ptr := e.chip.ptr + k.toNat } }) hkind (d + k.toNat)
      (e.chip.mem.burst e.chip.ptr d k.toNat)
    rw [Memory.burst_length, hburst] at hreads
    refine ⟨d + k.toNat, ?_, ?_⟩ <;> rw [Env.converse_cons_result hrequest _ rfl, Env.fill, hburst]
    · rfl
    · exact congrArg (Option.map _) hreads
  · simp [Env.answer_busRead_healthy hkind, Env.take, hbuf]
  · simp [Env.answer_busRead_healthy hkind, Env.take, hbuf]

end Sys2Proof.Machine
end

section
/-! PROOFS. The chip registers an operation leaves alone (R65, R77): only a close writes registers, and which ones
stands in the bytes queued before it. -/
namespace Sys2Proof.Machine

/-! ## The queue of a conversation and the register `a` -/

/-- The collaborator's queue after a primitive (R76, R77). -/
def enqueue (q : List Byte) : BusCall → List Byte
  | .busOpen _ => []
  | .busWrite b => q ++ [b]
  | .busClose => []
  | .busRequest _ _ => q
  | .busRead => q

/-- A close with this queue does not write register `a` (R77). -/
def QueueSpares (a : Nat) : List Byte → Prop
  | [] => True
  | p :: ds => a < p.toNat ∨ p.toNat + ds.length ≤ a

/-- No close of these primitives, begun with this queue, writes register `a`. -/
def CallsSpare (a : Nat) : List Byte → List BusCall → Prop
  | _, [] => True
  | q, c :: cs => (c = .busClose → QueueSpares a q) ∧ CallsSpare a (enqueue q c) cs

theorem Chip.read_apply_spared {c : Chip} {a : Nat} {q : List Byte} (hmem : c.mem.wf = true)
    (h : QueueSpares a q) : (c.apply q).mem.read a = c.mem.read a := by
  cases q with
  | nil => rfl
  | cons p ds => exact Memory.read_storeAll_other _ a ds hmem h

section lists
variable {a : Nat} (q : List Byte)

/-- READ and GET close a write of the pointer alone (R130). -/
theorem timeReadCalls_spare : CallsSpare a q timeReadCalls := by
  simp [timeReadCalls, CallsSpare, enqueue, QueueSpares]

/-- ISRUNNING and GETCAL do too (R141, R143). -/
theorem registerReadCalls_spare (p : Byte) : CallsSpare a q (registerReadCalls p) := by
  have hpointer : a < p.toNat ∨ p.toNat ≤ a := Nat.lt_or_ge a p.toNat
  simpa [registerReadCalls, CallsSpare, enqueue, QueueSpares] using hpointer

/-- SETCAL writes register 0x07 (R142). -/
theorem calWriteCalls_spare (calb : Byte) (h : a ≠ 7) : CallsSpare a q (calWriteCalls calb) := by
  have hone : a < 7 ∨ 8 ≤ a := by omega
  simpa [calWriteCalls, CallsSpare, enqueue, QueueSpares] using hone

/-- WRITE and SET write registers 0x00 to 0x06 and then 0x00 (R131). -/
theorem timeWriteCalls_spare (b : RawBytes) (h : 7 ≤ a) : CallsSpare a q (stopCalls b ++ restartCalls b) := by
  have htwo : 7 ≤ a ∧ 1 ≤ a := ⟨h, by omega⟩
  simpa [stopCalls, restartCalls, CallsSpare, enqueue, QueueSpares] using htwo

end lists

/-! ## One answer -/

/-- A collaborator whose primitives never reach the chip's registers (R79, log 26). -/
def Env.Isolated (e : Env) : Prop := e.kind = .absent ∨ ∃ l, e.kind = .unspecified l

theorem Env.reference_absent {e : Env} (h : e.kind = .absent) (c : BusCall) (d : Nat) :
    (e.reference c d).env.kind = .absent ∧ (e.reference c d).env.chip = e.chip := by
  cases c with
  | busOpen a => exact ⟨h, rfl⟩
  | busWrite b => exact ⟨h, rfl⟩
  | busClose => simp only [Env.reference, h, and_self]
  | busRequest a k => simp only [Env.reference, h, and_self]
  | busRead => simp only [Env.reference, Env.take]; split <;> exact ⟨h, rfl⟩

theorem Env.answer_unspecified {e : Env} {l : List (Option Byte)} (h : e.kind = .unspecified l) {c : BusCall}
    {d : Nat} {x : Answer} (hx : e.answer c d = some x) :
    (∃ l', x.env.kind = .unspecified l') ∧ x.env.chip = e.chip := by
  match l with
  | none :: rest => simp [Env.answer, h] at hx
  | some b :: rest =>
    obtain rfl : _ = x := by simpa [Env.answer, h] using hx
    exact ⟨⟨rest, rfl⟩, rfl⟩
  | [] =>
    obtain ⟨-, rfl⟩ : _ ∧ _ = x := by simpa [Env.answer, h] using hx
    exact ⟨⟨[], h⟩, rfl⟩

theorem Env.answer_isolated {e : Env} {c : BusCall} {d : Nat} {x : Answer} (h : e.Isolated)
    (hx : e.answer c d = some x) : x.env.Isolated ∧ x.env.chip = e.chip := by
  rcases h with h | ⟨l, h⟩
  · rw [Env.answer_of_reference (by simp [h])] at hx
    cases hx
    obtain ⟨hkind, hchip⟩ := Env.reference_absent h c d
    exact ⟨.inl hkind, hchip⟩
  · obtain ⟨hkind, hchip⟩ := Env.answer_unspecified h hx
    exact ⟨.inr hkind, hchip⟩

/-- Any other collaborator keeps the queue that R77 describes, and changes registers at a close alone. -/
theorem Env.answer_reaching {e : Env} {c : BusCall} {d : Nat} {x : Answer} (h : ¬ e.Isolated)
    (hx : e.answer c d = some x) : x.env.queue = enqueue e.queue c ∧
      (x.env.chip.mem = e.chip.mem ∨ c = .busClose ∧ x.env.chip = e.chip.apply e.queue) := by
  have hkind : e.kind ≠ .absent ∧ ∀ l, e.kind ≠ .unspecified l := by simpa [Env.Isolated] using h
  rw [Env.answer_of_reference hkind.2] at hx
  cases hx
  cases c with
  | busOpen a => exact ⟨rfl, .inl rfl⟩
  | busWrite b => exact ⟨rfl, .inl rfl⟩
  | busRead => simp only [Env.reference, Env.take]; split <;> exact ⟨rfl, .inl rfl⟩
  | busRequest a k => simp only [Env.reference]; split <;> exact ⟨rfl, .inl rfl⟩
  | busClose =>
    simp only [Env.reference]
    split
    · exact absurd ‹_› hkind.1
    · split
      · exact ⟨rfl, .inl rfl⟩
      · exact ⟨rfl, .inr ⟨trivial, rfl⟩⟩
    · exact ⟨rfl, .inr ⟨trivial, rfl⟩⟩

/-- The primitives to come do not write register `a`. -/
def Env.Spares (e : Env) (a : Nat) (calls : List BusCall) : Prop :=
  e.Isolated ∨ CallsSpare a e.queue calls

theorem Env.answer_spares {e : Env} {a : Nat} {c : BusCall} {calls : List BusCall} {d : Nat} {x : Answer}
    (hmem : e.chip.mem.wf = true) (h : e.Spares a (c :: calls)) (hx : e.answer c d = some x) :
    x.env.Spares a calls ∧ x.env.chip.mem.read a = e.chip.mem.read a := by
  by_cases hiso : e.Isolated
  · obtain ⟨hiso', hsame⟩ := Env.answer_isolated hiso hx
    exact ⟨.inl hiso', by rw [hsame]⟩
  · obtain ⟨hclose, hrest⟩ := h.resolve_left hiso
    obtain ⟨hqueue, hsame | ⟨hc, happly⟩⟩ := Env.answer_reaching hiso hx
    · exact ⟨.inr (hqueue ▸ hrest), by rw [hsame]⟩
    · exact ⟨.inr (hqueue ▸ hrest), by rw [happly, Chip.read_apply_spared hmem (hclose hc)]⟩

/-! ## One execution -/

/-- Nobody else moves, register `a` holds `v`, and in flight the primitives from `SEQ` on do not write it. -/
structure State.LeavesRegister (i : Instr) (a : Nat) (v : Byte) (s : State) : Prop where
  quiet : s.agenda = []
  mem : s.env.chip.mem.wf = true
  register : s.env.chip.mem.read a = v
  inFlight : ∀ op k, s.seq = .busy op k → operandsLatched i s.latch = true ∧
    s.env.Spares a ((callsOf s.years i).drop (s.latch.returned k))

theorem EventResult.leavesRegister {i : Instr} {a : Nat} {v : Byte} {s t : State} (he : EventResult i s t)
    (h : s.LeavesRegister i a v) : t.LeavesRegister i a v := by
  have hquiet : t.agenda = [] := he.agenda.trans h.quiet
  have hmem := he.mem_wf h.mem
  cases he with
  | completed c hdone =>
    subst hdone
    exact ⟨hquiet, hmem, h.register, nofun⟩
  | outstanding op k c hq hdue hcall hwait =>
    subst hwait
    exact ⟨hquiet, hmem, h.register, h.inFlight⟩
  | returned op k c f x hq hdue hk hcall hf hx hmoved =>
    subst hmoved
    obtain ⟨hlatched, hspares⟩ := h.inFlight op k hq
    have hbefore : s.latch.returned k = k - 1 := if_pos hdue
    obtain ⟨hlt, hc⟩ := List.getElem?_eq_some_iff.mp (hcall hlatched)
    rw [hbefore, List.drop_eq_getElem_cons hlt, hc, Nat.sub_add_cancel hk.1] at hspares
    obtain ⟨hspares', hread⟩ := Env.answer_spares h.mem hspares hx
    refine ⟨hquiet, hmem, ?_, fun op' j hj => ⟨hf.operands _ _ hlatched, ?_⟩⟩
    · rw [hf.env]
      exact hread.trans h.register
    · rw [hf.returned_eq (s := s.returned c x) x.ret hq hdue hj, hf.env, hf.years]
      exact hspares'

/-- An execution leaves a register alone that its list of primitives spares. -/
theorem exec_register_spared {i : Instr} {s t : State} {a : Nat} (ha : s.agenda = [])
    (hmem : s.env.chip.mem.wf = true) (hcalls : CallsSpare a s.env.queue (callsOf s.years i))
    (hexec : exec i s = .next t) : t.env.chip.mem.read a = s.env.chip.mem.read a := by
  refine (exec_induction (P := State.LeavesRegister i a (s.env.chip.mem.read a))
    (fun u _ h => by rwa [State.otherAgents_quiet h.quiet]) (fun _ _ _ h he => he.leavesRegister h)
    ⟨by simpa using ha, by simpa using hmem, by simp, fun op k hq => ?_⟩ hexec).register
  obtain ⟨rfl, rfl⟩ : i.op = op ∧ 1 = k := by simpa using hq
  exact ⟨s.started_operands i, .inr (by simpa [Latches.returned] using hcalls)⟩

/-- Settles O45: the lists of READ, GET, ISRUNNING and GETCAL close an empty write, SETCAL's writes 0x07, those of
WRITE and SET write below 0x07, and the others have no primitive. -/
theorem chipRegisterFrame : Obligations.ChipRegisterFrame := by
  intro i s t a ha hmem hexec hi
  refine exec_register_spared ha hmem ?_ hexec
  cases i with
  | get => exact timeReadCalls_spare _
  | set t => exact timeWriteCalls_spare _ _ hi
  | read => exact timeReadCalls_spare _
  | write tf => exact timeWriteCalls_spare _ _ hi
  | chippresent => trivial
  | isrunning => exact registerReadCalls_spare _ _
  | setcal v => exact calWriteCalls_spare _ _ hi
  | getcal => exact registerReadCalls_spare _ _
  | dec2bcd v => trivial
  | bcd2dec b => trivial

end Sys2Proof.Machine
end

section
/-! PROOFS. READ and GET with a failing probe, and the commands of S4 in front of an absent chip (R79, R130, R140,
R161). -/
namespace Sys2Proof.Machine

/-- A primitive has returned and nothing but the next step is attached to it (R31, R32). -/
def State.called (s : State) (c : BusCall) (a : Answer) : State := (s.returned c a).advance

theorem State.called_seq {s : State} {op : Op} {k : Nat} (h : s.seq = .busy op k) (c : BusCall) (a : Answer) :
    (s.called c a).seq = .busy op (k + 1) := by
  rw [State.called, State.advance_seq, State.returned_seq, h, Seq.next_busy]

/-- A run whose next event is such a primitive. -/
theorem State.run_callOnly {s : State} {steps : Nat → State → Progress} {n : Nat} {op : Op} {k : Nat}
    {c : BusCall} {a : Answer} (ha : s.agenda = []) (hq : s.seq = .busy op k) (hdue : s.latch.due = none)
    (hs : steps k s = s.callOnly c) (hc : s.env.answer c s.draws = some a) :
    State.run steps (n + 1) s = State.run steps n (s.called c a) :=
  State.run_call ha hq hdue hs hc (State.called_seq hq c a)

/-- The probe of READ and GET, READ.1 to READ.3 (R130). -/
def probeCalls : List BusCall := [.busOpen 0x68, .busWrite 0x00, .busClose]

/-- READ.3 (R130, R161): a close of the probe that reports a failure is the last primitive, and its completion the
next event. -/
theorem run_timeRead_failedProbe {s : State} {op : Op} {st : Byte} {e : Env} {d n : Nat} (q : Option Payload)
    (finish : Byte → TimeFields → Completion) (ha : s.agenda = []) (hq : s.seq = .busy op 1)
    (hdue : s.latch.due = none) (hprobe : s.env.converse s.draws probeCalls = some ([st], e, d))
    (hst : st ≠ 0) :
    State.run (timeReadSteps q finish) (n + 4) s =
      s.completed false probeCalls [st] e d (answerFail .busUnavailable q) := by
  obtain ⟨a₁, h₁, hwrite⟩ := (Env.converse_plain rfl).mp hprobe
  obtain ⟨a₂, h₂, hclose⟩ := (Env.converse_plain rfl).mp hwrite
  obtain ⟨a₃, h₃, rfl, hend⟩ := (Env.converse_result rfl).mp hclose
  obtain ⟨-, rfl, rfl⟩ := Env.converse_nil.mp hend
  have hq₂ := State.called_seq hq (.busOpen 0x68) a₁
  have hq₃ := State.called_seq hq₂ (.busWrite 0x00) a₂
  have hraise (t : State) : afterCheckedClose q a₃.ret t =
      ((t.setSt a₃.ret).setPresence false).raise .busUnavailable q := if_neg hst
  rw [State.run_callOnly ha hq hdue rfl h₁,
    State.run_callOnly (s := s.called _ a₁) ha hq₂ hdue rfl h₂,
    State.run_call (s := (s.called _ a₁).called _ a₂) (f := afterCheckedClose q) ha hq₃ hdue rfl h₃
      (by rw [hraise]; exact hq₃), hraise]
  refine Eq.trans (State.run_due ha hq₃ rfl) ?_
  simp [State.called, State.done, State.completed, probeCalls, traceOf, busEvent, BusCall.hasResult]

theorem exec_read_failedProbe {s : State} {st : Byte} {e : Env} {d : Nat} (ha : s.agenda = [])
    (hprobe : s.env.converse s.draws probeCalls = some ([st], e, d)) (hst : st ≠ 0) :
    exec .read s = .next (s.completed false probeCalls [st] e d (answerFail .busUnavailable none)) := by
  rw [exec_eq_started]
  exact congrArg _ (run_timeRead_failedProbe (s := s.started .read) none readCompletion ha rfl rfl hprobe hst)

/-- An absent chip answers the probe, and its close fails (R79). -/
theorem Env.converse_probe_absent {e : Env} (h : e.kind = .absent) (d : Nat) :
    e.converse d probeCalls = some ([Config.failStatus], { e with queue := [0x00] }, d) := by
  simp [probeCalls, Env.converse, Env.answer, Env.reference, h, BusCall.hasResult]

/-- CHIPPRESENT completes in its first event (R140). -/
theorem exec_chippresent {s : State} (ha : s.agenda = []) :
    exec .chippresent s = .next ((s.start .chippresent).done (answerOk (boolResult s.presence))) := by
  rw [exec_eq_started]
  exact congrArg _ (State.run_done ha rfl rfl rfl)

/-- Requester 0 finds the response to its command on its port (R33). -/
theorem State.answer0_of_deliver {s t : State} {w : Word} (hgrant : s.grant = some 0)
    (hlen : 0 < s.ports.length) (hports : t.ports = deliver s.grant w s.ports) : t.answer0 = some w := by
  have hrsp := deliver_rsp_owner w hlen
  rw [← hgrant, ← hports] at hrsp
  obtain ⟨p, hp, hw⟩ := Option.map_eq_some_iff.mp hrsp
  rw [State.answer0, List.head?_eq_getElem?, hp]
  exact hw

theorem State.answer0_completed {s : State} (hgrant : s.grant = some 0) (hlen : 0 < s.ports.length) (p : Bool)
    (calls : List BusCall) (rets : List Byte) (e : Env) (d : Nat) (c : Completion) :
    (s.completed p calls rets e d c).answer0 =
      some (responseWord (opField s.latch.cmd) c.err (c.payload d)) :=
  State.answer0_of_deliver hgrant hlen rfl

theorem State.answer0_done {s : State} (hgrant : s.grant = some 0) (hlen : 0 < s.ports.length)
    (c : Completion) :
    (s.done c).answer0 = some (responseWord (opField s.latch.cmd) c.err (c.payload s.draws)) :=
  State.answer0_of_deliver hgrant hlen rfl

/-- Settles O55 (S4): the probe fails, so READ ends there with `PRESENCE` 0, which CHIPPRESENT then answers. -/
theorem absentChipIsReported : Obligations.AbsentChipIsReported := by
  intro s ha hkind
  have hread := exec_read_failedProbe (s := s.placed (encode .read)) ha
    (Env.converse_probe_absent hkind _) (by decide)
  have hfailed := State.answer0_completed (s.placed_grant (encode .read)) (s.placed_port (encode .read))
    false probeCalls [Config.failStatus] { s.env with queue := [0x00] }
    (s.placed (encode .read)).draws (answerFail .busUnavailable none)
  rw [State.placed_cmd, Laws.FixedBits.read.1] at hfailed
  generalize ht : State.completed _ _ _ _ _ _ _ = t at hread hfailed
  have hquiet : t.agenda = [] := ht ▸ ha
  have hpresence : t.presence = false := ht ▸ rfl
  have hpresent := exec_chippresent (s := t.placed (encode .chippresent)) hquiet
  have hflag := State.answer0_done (s := (t.placed (encode .chippresent)).start .chippresent) rfl
    (t.placed_port (encode .chippresent)) (answerOk (boolResult t.presence))
  rw [State.start_latch, State.placed_cmd, Laws.FixedBits.chippresent.1, hpresence] at hflag
  refine ⟨t, _, _, (step_withCommand (by decide)).trans hread, hfailed, hpresence,
    (step_withCommand (by decide)).trans hpresent, ?_⟩
  rw [State.placed_presence, hpresence]
  exact hflag

end Sys2Proof.Machine
end

section
/-! PROOFS. The decoder and the encoder against each other, on operands, on payloads and on whole words
(R90 to R94, R98, R101); the response word (R95) and the answer to an illegal word (R164). -/
namespace Sys2Proof.TimeFields

/-- Format T: each field of the record stands in its own byte. -/
theorem ofPayload_toPayload (tf : TimeFields) : ofPayload tf.toPayload = tf := by
  unfold ofPayload toPayload
  congr 1 <;> (repeat rw [BitVec.extractLsb'_append_eq_of_le (by decide)])
  case e_year => exact BitVec.extractLsb'_eq_self
  all_goals exact BitVec.extractLsb'_append_eq_right

/-- Format T: the seven bytes of the record are the whole payload. -/
theorem toPayload_ofPayload (p : Payload) : (ofPayload p).toPayload = p := by
  unfold ofPayload toPayload
  repeat rw [BitVec.extractLsb'_append_extractLsb'_eq_extractLsb' (by decide)]
  exact BitVec.extractLsb'_eq_self

end Sys2Proof.TimeFields

namespace Sys2Proof.Machine

/-! ## Operands in a payload (R92, R93) -/

/-- Formats E and B: an operand stands in the low bits of the payload. -/
theorem extractLsb'_setWidth_payload {n : Nat} (hn : n ≤ 56) (x : BitVec n) :
    (x.setWidth 56).extractLsb' 0 n = x := by
  rw [BitVec.extractLsb'_setWidth_of_le (by omega), BitVec.extractLsb'_eq_self]

/-- Formats E and B: taking the operand out and laying it down again clears the bits the operation ignores. -/
theorem setWidth_extractLsb'_payload {n : Nat} (op : Op)
    (hop : payloadField (usedBits op) = (BitVec.allOnes n).setWidth 56) (p : Payload) :
    (p.extractLsb' 0 n).setWidth 56 = p &&& payloadField (usedBits op) := by
  rw [hop]
  ext k hk
  simp [Bool.and_comm, hk]

/-- CAL_W (R23): the byte of an operand that fits stands for that operand. -/
theorem toInt_ofInt_of_calOperandFits {v : Int} (h : calOperandFits v = true) : (BitVec.ofInt 8 v).toInt = v := by
  have hv : -128 ≤ v ∧ v ≤ 127 := by simpa [calOperandFits] using h
  exact BitVec.toInt_ofInt_eq_self (by decide) (by omega) (by omega)

theorem calOperandFits_toInt (b : Byte) : calOperandFits b.toInt = true := by
  have hlow := BitVec.le_toInt b
  have hhigh := BitVec.toInt_lt (x := b)
  simp only [calOperandFits, Bool.and_eq_true, decide_eq_true_eq]
  omega

/-! ## Operation code and payload (R94, R99, R101) -/

theorem decodeOp_opcode_payload {i : Instr} (h : i.wf = true) : decodeOp i.opcode i.payload = .ok i := by
  cases i with
  | get | read | chippresent | isrunning | getcal => rfl
  | set t => exact congrArg (Except.ok ∘ Instr.set) (extractLsb'_setWidth_payload (by decide) t)
  | write tf => exact congrArg (Except.ok ∘ Instr.write) (TimeFields.ofPayload_toPayload tf)
  | setcal v =>
    refine congrArg (Except.ok ∘ Instr.setcal) ?_
    exact (congrArg BitVec.toInt (extractLsb'_setWidth_payload (by decide) _)).trans
      (toInt_ofInt_of_calOperandFits h)
  | dec2bcd b => exact congrArg (Except.ok ∘ Instr.dec2bcd) (extractLsb'_setWidth_payload (by decide) b)
  | bcd2dec b => exact congrArg (Except.ok ∘ Instr.bcd2dec) (extractLsb'_setWidth_payload (by decide) b)

section decodeOp
variable {op : BitVec 4} {p : Payload} {i : Instr}

/-- Only SETCAL's operand could fail to fit, and it comes from a byte. -/
theorem decodeOp_wf (h : decodeOp op p = .ok i) : i.wf = true := by
  unfold decodeOp at h
  split at h <;> cases h
  case h_7 => exact calOperandFits_toInt _
  all_goals rfl

theorem decodeOp_opcode (h : decodeOp op p = .ok i) : i.opcode = op := by
  unfold decodeOp at h
  split at h <;> cases h <;> exact BitVec.eq_of_toNat_eq (Eq.symm ‹_›)

/-- Laid down again, the operands are the payload without its ignored bits, format by format. -/
theorem decodeOp_payload (h : decodeOp op p = .ok i) : i.payload = p &&& payloadField (usedBits i.op) := by
  unfold decodeOp at h
  split at h <;> cases h
  case h_2 => exact setWidth_extractLsb'_payload .set (by decide) p
  case h_4 =>
    have hall : payloadField (usedBits .write) = BitVec.allOnes 56 := by decide
    exact (TimeFields.toPayload_ofPayload p).trans (by rw [Instr.op, hall, BitVec.and_allOnes])
  case h_7 =>
    exact (congrArg (BitVec.setWidth 56) BitVec.ofInt_toInt).trans
      (setWidth_extractLsb'_payload .setcal (by decide) p)
  case h_9 => exact setWidth_extractLsb'_payload .dec2bcd (by decide) p
  case h_10 => exact setWidth_extractLsb'_payload .bcd2dec (by decide) p
  all_goals exact BitVec.and_zero.symm

theorem decodeOp_error_iff : (∃ e, decodeOp op p = .error e) ↔ op.toNat = 0 ∨ 0xB ≤ op.toNat := by
  unfold decodeOp
  split
  case h_11 =>
    simp only [imp_false] at *
    exact iff_of_true ⟨_, rfl⟩ (by omega)
  all_goals exact iff_of_false nofun (by omega)

end decodeOp

/-! ## Command words (R90, R98, R101) -/

section words
variable {v w : Word} {i : Instr}

theorem encode_fields (i : Instr) :
    opField (encode i) = i.opcode ∧ rzField (encode i) = 0 ∧ payloadField (encode i) = i.payload :=
  Laws.FixedBits.fields_of_word i.opcode i.payload

theorem word_of_fields (w : Word) : opField w ++ rzField w ++ payloadField w = w := by
  unfold opField rzField payloadField
  repeat rw [BitVec.extractLsb'_append_extractLsb'_eq_extractLsb' (by decide)]
  exact BitVec.extractLsb'_eq_self

/-- The three fields are the whole word (R90). -/
theorem word_eq_of_fields (hop : opField v = opField w) (hrz : rzField v = rzField w)
    (hp : payloadField v = payloadField w) : v = w := by
  rw [← word_of_fields v, hop, hrz, hp, word_of_fields]

theorem decode_eq_ok_iff :
    decode w = .ok i ↔ rzField w = 0 ∧ decodeOp (opField w) (payloadField w) = .ok i := by
  unfold decode
  split
  · exact (and_iff_right ‹_›).symm
  · exact iff_of_false nofun fun h => absurd h.1 ‹_›

theorem decode_eq_error_iff : (∃ e, decode w = .error e) ↔
    rzField w ≠ 0 ∨ ∃ e, decodeOp (opField w) (payloadField w) = .error e := by
  unfold decode
  split
  · exact (or_iff_right (not_not_intro ‹_›)).symm
  · exact iff_of_true ⟨_, rfl⟩ (.inl ‹_›)

/-- Every operation looks at bits 63:60 (R101). -/
theorem opField_usedBits (op : Op) : opField (usedBits op) = BitVec.allOnes 4 := by
  cases op <;> decide

end words

/-- Settles O1: the fields of the encoded word are the operation code, 0000 and the payload, which `decodeOp`
takes back to the command. -/
theorem decodeEncodeIsIdentity : Obligations.DecodeEncodeIsIdentity := by
  intro i hwf
  obtain ⟨hop, hrz, hp⟩ := encode_fields i
  rw [decode_eq_ok_iff, hop, hp]
  exact ⟨hrz, decodeOp_opcode_payload hwf⟩

/-- Settles O2: the two words agree field by field; only the payload has bits that are ignored. -/
theorem encodeDecodeClearsIgnoredBits : Obligations.EncodeDecodeClearsIgnoredBits := by
  intro w i h
  obtain ⟨hrz, hi⟩ := decode_eq_ok_iff.mp h
  obtain ⟨hopEnc, hrzEnc, hpEnc⟩ := encode_fields i
  refine ⟨decodeOp_wf hi, word_eq_of_fields ?_ ?_ ?_⟩
  · calc opField (encode i) = opField w := hopEnc.trans (decodeOp_opcode hi)
      _ = opField w &&& opField (usedBits i.op) := by rw [opField_usedBits, BitVec.and_allOnes]
      _ = opField (w &&& usedBits i.op) := BitVec.extractLsb'_and.symm
  · calc rzField (encode i) = 0 &&& rzField (usedBits i.op) := hrzEnc.trans BitVec.zero_and.symm
      _ = rzField w &&& rzField (usedBits i.op) := by rw [hrz]
      _ = rzField (w &&& usedBits i.op) := BitVec.extractLsb'_and.symm
  · calc payloadField (encode i) = payloadField w &&& payloadField (usedBits i.op) :=
          hpEnc.trans (decodeOp_payload hi)
      _ = payloadField (w &&& usedBits i.op) := BitVec.extractLsb'_and.symm

/-- Settles O3: `decode` refuses the reserved bits, `decodeOp` the operation codes outside 0x1 to 0xA. -/
theorem illegalWordsAreExactlyThese : Obligations.IllegalWordsAreExactlyThese := by
  intro w
  rw [decode_eq_error_iff, decodeOp_error_iff, or_comm, or_assoc]

/-- Settles O4: ten closed words, which the decoder is run on. -/
theorem tableWordsDecode : Obligations.TableWordsDecode := by
  unfold Obligations.TableWordsDecode
  decide

/-! ## Response words (R95, R97) -/

theorem okFlag_set_iff (err : Option ErrorKind) : (okFlag err).getLsbD 0 = true ↔ err = none := by
  unfold okFlag
  split <;> simp [*]

/-- Settles O5: each field of the concatenation is found where the fields below it end. -/
theorem responseWordLayout : Obligations.ResponseWordLayout := by
  intro op err q
  unfold responseWord
  refine ⟨?_, ?_, ?_, BitVec.extractLsb'_append_eq_right⟩
  · repeat rw [BitVec.extractLsb'_append_eq_of_le (by decide)]
    exact BitVec.extractLsb'_eq_self
  · have hok : (op ++ okFlag err ++ errCode err ++ q).getLsbD 59 = (okFlag err).getLsbD 0 := by
      repeat rw [BitVec.getLsbD_append]
      rfl
    exact hok ▸ okFlag_set_iff err
  · rw [BitVec.extractLsb'_append_eq_of_le (by decide)]
    refine BitVec.extractLsb'_append_eq_right.trans ?_
    unfold errCode
    split <;> rfl

/-! ## The answer to an illegal word (R98, R164) -/

theorem State.accepted_illegal {s : State} {r : Nat} {w : Word} {e : IllegalWord}
    (h : s.arbitrate = some (r, w)) (he : decode w = .error e) :
    s.accepted = .next (s.accept r w).answerIllegal := by
  simp [State.accepted, h, he]

/-- The picked requester has a port (R70). -/
theorem State.arbitrate_lt {s : State} {r : Nat} {w : Word} (h : s.arbitrate = some (r, w)) :
    r < s.ports.length := by
  obtain ⟨p, hp, -⟩ := Option.map_eq_some_iff.mp (mem_waitingFrom_zero.mp (State.arbitrate_mem h).1)
  exact (List.getElem?_eq_some_iff.mp hp).1

/-- The response word of R164: `ok` 0, `err` 4, `Q` 0. -/
theorem State.answerIllegal_ports (s : State) : s.answerIllegal.ports =
    deliver s.grant (opField s.latch.cmd ++ (0 : BitVec 1) ++ (4 : BitVec 3) ++ (0 : BitVec 56)) s.ports := rfl

/-- Settles O8: the step is the acceptance and `answerIllegal`, which delivers one response and clears the rest. -/
theorem illegalWordAnswered : Obligations.IllegalWordAnswered := by
  intro s r w e ha hq harb he
  have hstep := (step_idle_quiet ha hq).trans (State.accepted_illegal harb he)
  refine ⟨_, hstep, rfl, rfl, rfl, rfl, rfl, rfl, rfl, rfl, ?_, fun q hne => ?_⟩
  · have hport : r < s.ports.length := by simpa using State.arbitrate_lt harb
    simp [State.answerIllegal_ports, deliver, hport]
  · have hgrant : (s.takeResponses.accept r w).grant ≠ some q := by simpa using Ne.symm hne
    rw [State.answerIllegal_ports, deliver_other hgrant]
    simp [Ne.symm hne]

end Sys2Proof.Machine
end

section
/-! PROOFS. The BCD codec (R120, R121, R123): its two functions as arithmetic on numbers, the round trips, and the
commands DEC2BCD and BCD2DEC, which complete in their first event. -/
namespace Sys2Proof.Machine

/-! ## The two functions as numbers (R120, R121) -/

@[simp] theorem dec2bcd_toNat (v : Byte) : (dec2bcd v).toNat = (v.toNat / 10 * 16 + v.toNat % 10) % 256 :=
  BitVec.toNat_ofNat ..

/-- The largest value is that of 0xFF. -/
theorem bcd2dec_value_le (b : Byte) : b.toNat / 16 * 10 + b.toNat % 16 ≤ 165 := by
  have hb := b.isLt
  omega

/-- BCD2DEC never truncates (R121). -/
@[simp] theorem bcd2dec_toNat (b : Byte) : (bcd2dec b).toNat = b.toNat / 16 * 10 + b.toNat % 16 :=
  Nat.mod_eq_of_lt ((bcd2dec_value_le b).trans_lt (by decide))

/-! ## Round trips (R123) -/

/-- From 160 on the tens digit no longer fits its nibble, and `dec2bcd` truncates. -/
theorem bcd2dec_dec2bcd_iff (v : Byte) : bcd2dec (dec2bcd v) = v ↔ v.toNat < 160 := by
  have hv := v.isLt
  rw [← BitVec.toNat_inj, bcd2dec_toNat, dec2bcd_toNat]
  omega

/-- A low nibble above 9 carries into the tens. -/
theorem dec2bcd_bcd2dec_iff (b : Byte) : dec2bcd (bcd2dec b) = b ↔ b.toNat % 16 ≤ 9 := by
  have hb := b.isLt
  rw [← BitVec.toNat_inj, dec2bcd_toNat, bcd2dec_toNat]
  omega

/-- Settles O14: each direction is an equation between numbers below 256. -/
theorem codecRoundTrips : Obligations.CodecRoundTrips :=
  ⟨bcd2dec_dec2bcd_iff, dec2bcd_bcd2dec_iff⟩

/-! ## The commands (R120, R121, R127) -/

theorem byteResult_eq_ofNat (b : Byte) : byteResult b = BitVec.ofNat 56 b.toNat :=
  (BitVec.ofNat_toNat 56 b).symm

/-- Completed from its first step, a command leaves nothing but its answer (R33). -/
theorem State.done_started_eq_completed (i : Instr) (s : State) (c : Completion) :
    (s.started i).done c = s.completed s.presence [] [] s.env s.draws c := by
  obtain ⟨-, -, -, -, hframe⟩ := State.started_spec i s
  rw [hframe]
  simp [State.done, State.completed, traceOf]

/-- A command whose first step is its completion has no primitive. -/
theorem exec_of_firstStep_done {i : Instr} {s : State} {c : Completion} (ha : s.agenda = [])
    (hfirst : stepsOf i 1 (s.started i) = .moved ((s.started i).done c)) :
    exec i s = .next (s.completed s.presence [] [] s.env s.draws c) := by
  rw [exec_eq_started, ← State.done_started_eq_completed i s c]
  exact congrArg _ (State.run_done (by simpa using ha) (s.started_seq i) (s.started_due i) hfirst)

theorem exec_dec2bcd {s : State} (v : Byte) (ha : s.agenda = []) : exec (.dec2bcd v) s =
    .next (s.completed s.presence [] [] s.env s.draws (answerOk (byteResult (dec2bcd v)))) :=
  exec_of_firstStep_done ha rfl

theorem exec_bcd2dec {s : State} (b : Byte) (ha : s.agenda = []) : exec (.bcd2dec b) s =
    .next (s.completed s.presence [] [] s.env s.draws (answerOk (byteResult (bcd2dec b)))) :=
  exec_of_firstStep_done ha rfl

/-- Settles O12: the one event is the completion, whose payload is the number of `dec2bcd v`. -/
theorem dec2bcdAnswersTheFormula : Obligations.Dec2bcdAnswersTheFormula := by
  intro s v ha
  rw [exec_dec2bcd v ha, byteResult_eq_ofNat, dec2bcd_toNat]

/-- Settles O13: the one event is the completion, whose payload is the number of `bcd2dec b`. -/
theorem bcd2decAnswersTheFormula : Obligations.Bcd2decAnswersTheFormula := by
  intro s b ha
  rw [exec_bcd2dec b ha, byteResult_eq_ofNat, bcd2dec_toNat]
  exact ⟨rfl, bcd2dec_value_le b⟩

end Sys2Proof.Machine
end

section
/-! PROOFS. A command in conversation with the collaborator, nobody else moving: the primitives to come with their
answers, one rule for each thing the next event can be (R31, R32, R33). -/
namespace Sys2Proof.Machine

/-! ## What a completed command leaves -/

/-- A completion is a command answered with no primitive left (R33). -/
theorem State.done_eq_completed (s : State) (c : Completion) :
    s.done c = s.completed s.presence [] [] s.env s.draws c := by
  simp [State.done, State.completed, traceOf]

/-- The first step of a command changes nothing that its completion leaves. -/
theorem State.started_completed (i : Instr) (s : State) (p : Bool) (calls : List BusCall) (rets : List Byte)
    (e : Env) (d : Nat) (c : Completion) :
    (s.started i).completed p calls rets e d c = s.completed p calls rets e d c := by
  cases i <;> rfl

/-- What the assignments attached to a primitive write is written over at the completion. -/
theorem Attached.completed {i : Instr} {k : Nat} {f : Byte → State → State} (hf : Attached i k f) (b : Byte)
    (s : State) (p : Bool) (calls : List BusCall) (rets : List Byte) (e : Env) (d : Nat) (c : Completion) :
    (f b s).completed p calls rets e d c = s.completed p calls rets e d c := by
  have hcmd := hf.cmd b s
  rw [hf.frame]
  simp only [State.completed, hcmd]

section returned
variable (s : State) {call : BusCall} (a : Answer) (p : Bool) (calls : List BusCall) (rets : List Byte) (e : Env)
  (d : Nat) (c : Completion)

theorem State.returned_completed_result (hc : call.hasResult = true) :
    (s.returned call a).completed p calls rets e d c = s.completed p (call :: calls) (a.ret :: rets) e d c := by
  simp [State.completed, State.returned, traceOf, busEvent, hc]

theorem State.returned_completed_plain (hc : call.hasResult = false) :
    (s.returned call a).completed p calls rets e d c = s.completed p (call :: calls) rets e d c := by
  simp [State.completed, State.returned, traceOf, busEvent, hc]

end returned

/-! ## The conversation to come -/

/-- Nobody else moves, the command stands at step `k` of `op` with no completion due, and the collaborator answers
the primitives `calls` with `rets`, coming to the environment `e` with `d` draws taken. -/
structure State.Converses (op : Op) (k : Nat) (calls : List BusCall) (rets : List Byte) (e : Env) (d : Nat)
    (s : State) : Prop where
  quiet : s.agenda = []
  seq : s.seq = .busy op k
  due : s.latch.due = none
  converse : s.env.converse s.draws calls = some (rets, e, d)

/-- `u` has what a step of an operation reads besides the answer of its primitive. -/
structure State.SameBlock (s u : State) : Prop where
  presence : u.presence = s.presence
  latch : u.latch = s.latch
  years : u.years = s.years

theorem State.SameBlock.refl (s : State) : s.SameBlock s := ⟨rfl, rfl, rfl⟩

theorem State.SameBlock.trans {s t u : State} (hst : s.SameBlock t) (htu : t.SameBlock u) : s.SameBlock u :=
  ⟨htu.presence.trans hst.presence, htu.latch.trans hst.latch, htu.years.trans hst.years⟩

theorem State.SameBlock.timeBytes {s u : State} (h : s.SameBlock u) : u.timeBytes = s.timeBytes := by
  rw [State.timeBytes, State.timeBytes, h.latch, h.years]

theorem State.started_converses {s : State} (i : Instr) {calls : List BusCall} {rets : List Byte} {e : Env}
    {d : Nat} (ha : s.agenda = []) (h : s.env.converse s.draws calls = some (rets, e, d)) :
    (s.started i).Converses i.op 1 calls rets e d where
  quiet := (s.started_agenda i).trans ha
  seq := s.started_seq i
  due := s.started_due i
  converse := by cases i <;> exact h

section Converses
variable {steps : Nat → State → Progress} {op : Op} {k n : Nat} {call : BusCall} {calls : List BusCall} {r : Byte}
  {rets : List Byte} {e : Env} {d : Nat} {p : Bool} {c : Completion} {s : State}

/-! ## Assignments in between -/

theorem State.Converses.advance (h : s.Converses op k calls rets e d) :
    s.advance.Converses op (k + 1) calls rets e d :=
  ⟨h.quiet, congrArg Seq.next h.seq, h.due, h.converse⟩

theorem State.Converses.setPresence (h : s.Converses op k calls rets e d) (b : Bool) :
    (s.setPresence b).Converses op k calls rets e d :=
  ⟨h.quiet, h.seq, h.due, h.converse⟩

theorem State.Converses.setSt (h : s.Converses op k calls rets e d) (v : Byte) :
    (s.setSt v).Converses op k calls rets e d :=
  ⟨h.quiet, h.seq, h.due, h.converse⟩

theorem State.Converses.setCnt (h : s.Converses op k calls rets e d) (v : Byte) :
    (s.setCnt v).Converses op k calls rets e d :=
  ⟨h.quiet, h.seq, h.due, h.converse⟩

theorem State.Converses.setByte (h : s.Converses op k calls rets e d) (j : Nat) (v : Byte) :
    (s.setByte j v).Converses op k calls rets e d :=
  ⟨h.quiet, h.seq, h.due, h.converse⟩

theorem State.Converses.setTf (h : s.Converses op k calls rets e d) (tf : TimeFields) :
    (s.setTf tf).Converses op k calls rets e d :=
  ⟨h.quiet, h.seq, h.due, h.converse⟩

/-! ## The next event -/

/-- The next event is the completion, which the step makes. -/
theorem State.Converses.run_done (h : s.Converses op k [] [] e d) (hs : steps k s = .moved (s.done c)) :
    State.run steps (n + 1) s = s.completed s.presence [] [] e d c := by
  obtain ⟨-, rfl, rfl⟩ := Env.converse_nil.mp h.converse
  exact (State.run_done h.quiet h.seq h.due hs).trans (s.done_eq_completed c)

/-- The next event is the completion, which is due. -/
theorem State.Converses.run_conclude (h : s.Converses op k [] [] e d) (c : Completion) :
    State.run steps (n + 1) (s.conclude c) = (s.conclude c).completed s.presence [] [] e d c := by
  obtain ⟨-, rfl, rfl⟩ := Env.converse_nil.mp h.converse
  exact (State.run_due (s := s.conclude c) h.quiet h.seq rfl).trans (State.done_eq_completed _ c)

/-- The next event is a primitive with a result, which its assignments look at. -/
theorem State.Converses.run_result {i : Instr} {f : Byte → State → State}
    (h : s.Converses op k (call :: calls) (r :: rets) e d) (hf : Attached i k f)
    (hs : steps k s = s.callBus call f) (hc : call.hasResult = true)
    (hrest : ∀ u, s.SameBlock u → u.Converses op k calls rets e d →
      State.run steps n (f r u) = (f r u).completed p calls rets e d c) :
    State.run steps (n + 1) s = s.completed p (call :: calls) (r :: rets) e d c := by
  obtain ⟨a, ha, rfl, hconverse⟩ := (Env.converse_result hc).mp h.converse
  have hbusy : (s.returned call a).seq ≠ .idle := by simp [h.seq]
  cases hq : (f a.ret (s.returned call a)).seq with
  | idle => exact absurd hq (hf.seq_ne_idle a.ret hbusy)
  | busy op' k' =>
    rw [State.run_call h.quiet h.seq h.due hs ha hq,
      hrest (s.returned call a) ⟨rfl, rfl, rfl⟩ ⟨h.quiet, h.seq, h.due, hconverse⟩, hf.completed,
      State.returned_completed_result _ _ _ _ _ _ _ _ hc]

/-- The next event is a primitive without a result. -/
theorem State.Converses.run_plain (h : s.Converses op k (call :: calls) rets e d)
    (hs : steps k s = s.callOnly call) (hc : call.hasResult = false)
    (hrest : ∀ u, s.SameBlock u → u.Converses op (k + 1) calls rets e d →
      State.run steps n u = u.completed p calls rets e d c) :
    State.run steps (n + 1) s = s.completed p (call :: calls) rets e d c := by
  obtain ⟨a, ha, hconverse⟩ := (Env.converse_plain hc).mp h.converse
  rw [State.run_callOnly h.quiet h.seq h.due hs ha,
    hrest (s.called call a) ⟨rfl, rfl, rfl⟩ ⟨h.quiet, State.called_seq h.seq call a, h.due, hconverse⟩]
  exact State.returned_completed_plain s a p calls rets e d c hc

end Converses

/-! ## A write transaction up to its close (R51, R52) -/

/-- The primitives of a write transaction before its close: the register pointer and the bytes behind it. -/
def queueCalls (pointer : Byte) (bytes : List Byte) : List BusCall :=
  .busOpen 0x68 :: .busWrite pointer :: bytes.map .busWrite

theorem hasResult_of_mem_queueCalls {pointer : Byte} {bytes : List Byte} :
    ∀ call ∈ queueCalls pointer bytes, call.hasResult = false := by
  simp [queueCalls, BusCall.hasResult]

/-- The steps from `k` on are the primitives `calls`, with no assignment but the next step. -/
def CallsOnly (steps : Nat → State → Progress) (s : State) : Nat → List BusCall → Prop
  | _, [] => True
  | k, call :: calls => steps k s = s.callOnly call ∧ CallsOnly steps s (k + 1) calls

section Converses
variable {steps : Nat → State → Progress} {op : Op} {n : Nat} {calls : List BusCall}
  {rets : List Byte} {e : Env} {d : Nat} {p : Bool} {c : Completion}

/-- The next events are primitives without results. -/
theorem State.Converses.run_plains {plain : List BusCall} {k : Nat} {s : State}
    (h : s.Converses op k (plain ++ calls) rets e d) (hplain : ∀ call ∈ plain, call.hasResult = false)
    (hs : ∀ u, s.SameBlock u → CallsOnly steps u k plain)
    (hrest : ∀ u, s.SameBlock u → u.Converses op (k + plain.length) calls rets e d →
      State.run steps n u = u.completed p calls rets e d c) :
    State.run steps (n + plain.length) s = s.completed p (plain ++ calls) rets e d c := by
  induction plain generalizing k s with
  | nil => exact hrest s (.refl s) h
  | cons call plain ih =>
    obtain ⟨hc, hplain⟩ := List.forall_mem_cons.mp hplain
    refine h.run_plain (hs s (.refl s)).1 hc fun u hu hconverses => ?_
    refine ih hconverses hplain (fun v hv => (hs v (hu.trans hv)).2) fun v hv hv' => ?_
    rw [Nat.add_assoc, Nat.add_comm 1] at hv'
    exact hrest v (hu.trans hv) hv'

/-- The next events queue the bytes of a write transaction. -/
theorem State.Converses.run_queue {k : Nat} {s : State} {pointer : Byte} {bytes : List Byte}
    (h : s.Converses op k (queueCalls pointer bytes ++ calls) rets e d)
    (hs : ∀ u, s.SameBlock u → CallsOnly steps u k (queueCalls pointer bytes))
    (hrest : ∀ u, s.SameBlock u → u.Converses op (k + (queueCalls pointer bytes).length) calls rets e d →
      State.run steps n u = u.completed p calls rets e d c) :
    State.run steps (n + (queueCalls pointer bytes).length) s =
      s.completed p (queueCalls pointer bytes ++ calls) rets e d c :=
  h.run_plains hasResult_of_mem_queueCalls hs hrest

/-- A command whose run from its first step answers, answers (R70). -/
theorem exec_of_run {i : Instr} {s : State}
    (ha : s.agenda = []) (hconverse : s.env.converse s.draws calls = some (rets, e, d))
    (hrun : (s.started i).Converses i.op 1 calls rets e d →
      State.run (stepsOf i) Config.maxEvents (s.started i) = (s.started i).completed p calls rets e d c) :
    exec i s = .next (s.completed p calls rets e d c) := by
  rw [exec_eq_started, hrun (State.started_converses i ha hconverse), State.started_completed]

end Converses

end Sys2Proof.Machine
end

section
/-! PROOFS. READ (R130, R132), as far as the step list that it shares with GET goes for any payload of a failure and
any completion of step 12. -/
namespace Sys2Proof.Machine

/-- `B<k>` and the following latches, each with one byte of `bytes` (R130). -/
def RawBytes.setBytes (raw : RawBytes) : Nat → List Byte → RawBytes
  | _, [] => raw
  | k, b :: bytes => (raw.setByte k b).setBytes (k + 1) bytes

/-- Steps READ.5 to READ.10 read `B0` to `B5`. -/
theorem timeReadSteps_byte (q : Option Payload) (finish : Byte → TimeFields → Completion) {j : Nat} (hj : j < 6)
    (s : State) : timeReadSteps q finish (5 + j) s = s.callBus .busRead (afterTimeByte j) := by
  interval_cases j <;> rfl

section timeRead
variable {q : Option Payload} {finish : Byte → TimeFields → Completion} {op : Op} {n : Nat}
  {calls : List BusCall} {rets : List Byte} {e : Env} {d : Nat} {p : Bool} {c : Completion} {s : State}

/-- READ.1 to READ.3: a probe whose close reports 0 sets `PRESENCE`, and the operation goes on. -/
theorem State.Converses.run_goodProbe (h : s.Converses op 1 (probeCalls ++ calls) (0 :: rets) e d)
    (hrest : ∀ u, u.Converses op 4 calls rets e d → u.presence = true → u.years = s.years →
      State.run (timeReadSteps q finish) n u = u.completed p calls rets e d c) :
    State.run (timeReadSteps q finish) (n + 3) s = s.completed p (probeCalls ++ calls) (0 :: rets) e d c := by
  refine State.Converses.run_queue (pointer := 0x00) (bytes := []) h (fun _ _ => ⟨rfl, rfl, trivial⟩)
    fun u hu hclose => ?_
  exact hclose.run_result (afterCheckedClose_attached (i := .read) q rfl (by decide)) rfl rfl
    fun v hv hgood => hrest _ ((hgood.setSt 0).setPresence true).advance rfl (hv.years.trans hu.years)

/-- READ.4: with fewer than 7 bytes the request is the last primitive (R162). -/
theorem State.Converses.run_shortRequest {count : Byte} (h : s.Converses op 4 [.busRequest 0x68 7] [count] e d)
    (hcount : count.toNat < 7) :
    State.run (timeReadSteps q finish) (n + 2) s =
      s.completed s.presence [.busRequest 0x68 7] [count] e d (answerFail .shortRead q) := by
  refine h.run_result (afterTimeRequest_attached (i := .read) q (by decide)) rfl rfl fun u hu hshort => ?_
  have hraise : afterTimeRequest q count u = (u.setCnt count).raise .shortRead q := if_pos hcount
  rw [hraise, ← hu.presence]
  exact (hshort.setCnt count).run_conclude _

/-- READ.4: with 7 bytes or more the operation goes on. -/
theorem State.Converses.run_fullRequest {count : Byte}
    (h : s.Converses op 4 (.busRequest 0x68 7 :: calls) (count :: rets) e d) (hcount : 7 ≤ count.toNat)
    (hrest : ∀ u, u.Converses op 5 calls rets e d → u.presence = s.presence → u.years = s.years →
      State.run (timeReadSteps q finish) n u = u.completed p calls rets e d c) :
    State.run (timeReadSteps q finish) (n + 1) s =
      s.completed p (.busRequest 0x68 7 :: calls) (count :: rets) e d c := by
  refine h.run_result (afterTimeRequest_attached (i := .read) q (by decide)) rfl rfl fun u hu hfull => ?_
  have hgoOn : afterTimeRequest q count u = (u.setCnt count).advance := if_neg (Nat.not_lt.mpr hcount)
  rw [hgoOn]
  exact hrest _ (hfull.setCnt count).advance hu.presence hu.years

/-- READ.5 to READ.10: the bytes that are read go to their latches in order. -/
theorem State.Converses.run_timeBytes {bytes : List Byte} {j : Nat}
    (h : s.Converses op (5 + j) (List.replicate bytes.length .busRead ++ calls) (bytes ++ rets) e d)
    (hj : j + bytes.length ≤ 6)
    (hrest : ∀ u, u.Converses op (5 + j + bytes.length) calls rets e d → u.presence = s.presence →
      u.years = s.years → u.latch.raw = s.latch.raw.setBytes j bytes →
      State.run (timeReadSteps q finish) n u = u.completed p calls rets e d c) :
    State.run (timeReadSteps q finish) (n + bytes.length) s =
      s.completed p (List.replicate bytes.length .busRead ++ calls) (bytes ++ rets) e d c := by
  induction bytes generalizing s j with
  | nil => exact hrest s h rfl rfl rfl
  | cons b bytes ih =>
    rw [List.length_cons] at hj
    refine h.run_result (afterTimeByte_attached (i := .read) (by simp only [lastStep, Instr.op]; omega))
      (timeReadSteps_byte q finish (by omega) s) rfl fun u hu hread => ?_
    refine ih (j := j + 1) (hread.setByte j b).advance (by omega) fun v hv hpresence hyears hraw => ?_
    refine hrest v ?_ (hpresence.trans hu.presence) (hyears.trans hu.years) ?_
    · rwa [List.length_cons, Nat.add_comm _ 1, ← Nat.add_assoc]
    · rw [hraw, ← hu.latch]
      rfl

/-- READ.11 and READ.12: the last byte is read, the record is decoded and the command completes. -/
theorem State.Converses.run_lastTimeByte {b0 b1 b2 b3 b4 b5 b6 old : Byte}
    (h : s.Converses op 11 [.busRead] [b6] e d) (hraw : s.latch.raw = ⟨b0, b1, b2, b3, b4, b5, old⟩) :
    State.run (timeReadSteps q finish) (n + 2) s = s.completed s.presence [.busRead] [b6] e d
      (finish b0 (decodeTime s.years ⟨b0, b1, b2, b3, b4, b5, b6⟩)) := by
  refine h.run_result (afterLastTimeByte_attached (i := .read) (.inl rfl) (by decide)) rfl rfl
    fun u hu hlast => ?_
  have hbytes : (u.setByte 6 b6).latch.raw = ⟨b0, b1, b2, b3, b4, b5, b6⟩ := by
    rw [State.setByte_latch, hu.latch, hraw]
    rfl
  have hmoved : afterLastTimeByte b6 u =
      ((u.setByte 6 b6).setTf (decodeTime s.years ⟨b0, b1, b2, b3, b4, b5, b6⟩)).advance := by
    rw [← hbytes, ← hu.years]
    rfl
  rw [hmoved, ← hu.presence]
  refine ((hlast.setByte 6 b6).setTf _).advance.run_done (congrArg Progress.moved ?_)
  simp [hu.latch, hraw, RawBytes.setByte]

/-- READ.3, READ.4 (R162): a good probe and a request that is answered with fewer than 7 bytes. -/
theorem State.Converses.run_shortRead {count : Byte}
    (h : s.Converses op 1 (probeCalls ++ [.busRequest 0x68 7]) [0, count] e d) (hcount : count.toNat < 7) :
    State.run (timeReadSteps q finish) (n + 5) s =
      s.completed true (probeCalls ++ [.busRequest 0x68 7]) [0, count] e d (answerFail .shortRead q) :=
  h.run_goodProbe fun _ hrequest hpresence _ => hpresence ▸ hrequest.run_shortRequest hcount

/-- READ.1 to READ.12 (R130, R132): a good probe and a burst of at least 7 bytes. -/
theorem State.Converses.run_burst {count b0 b1 b2 b3 b4 b5 b6 : Byte}
    (h : s.Converses op 1 timeReadCalls [0, count, b0, b1, b2, b3, b4, b5, b6] e d) (hcount : 7 ≤ count.toNat) :
    State.run (timeReadSteps q finish) (n + 12) s =
      s.completed true timeReadCalls [0, count, b0, b1, b2, b3, b4, b5, b6] e d
        (finish b0 (decodeTime s.years ⟨b0, b1, b2, b3, b4, b5, b6⟩)) := by
  refine State.Converses.run_goodProbe h fun u hrequest hpresence hyears => ?_
  refine hrequest.run_fullRequest hcount fun v hreads hpresence' hyears' => ?_
  refine State.Converses.run_timeBytes (bytes := [b0, b1, b2, b3, b4, b5]) (j := 0) hreads (le_refl 6)
    fun w hlast hpresence'' hyears'' hraw => ?_
  have hgood : w.presence = true := hpresence''.trans (hpresence'.trans hpresence)
  have hsame : w.years = s.years := hyears''.trans (hyears'.trans hyears)
  rw [← hgood, ← hsame]
  exact hlast.run_lastTimeByte hraw

end timeRead

/-- Settles O19: the close that fails is the last primitive. -/
theorem readFailsOnTheProbe : Obligations.ReadFailsOnTheProbe :=
  fun _ _ _ _ => exec_read_failedProbe

/-- Settles O20: the request that falls short is the last primitive. -/
theorem readFailsOnAShortBurst : Obligations.ReadFailsOnAShortBurst :=
  fun _ _ _ _ ha hconverse hcount => exec_of_run ha hconverse fun h => h.run_shortRead hcount

/-- READ's answer to a burst (R130, R132). -/
theorem exec_read_burst {s : State} {count b0 b1 b2 b3 b4 b5 b6 : Byte} {e : Env} {d : Nat} (ha : s.agenda = [])
    (hconverse : s.env.converse s.draws timeReadCalls = some ([0, count, b0, b1, b2, b3, b4, b5, b6], e, d))
    (hcount : 7 ≤ count.toNat) :
    exec .read s = .next (s.completed true timeReadCalls [0, count, b0, b1, b2, b3, b4, b5, b6] e d
      (readCompletion b0 (decodeTime s.years ⟨b0, b1, b2, b3, b4, b5, b6⟩))) :=
  exec_of_run ha hconverse fun h => h.run_burst hcount

/-- The raw seconds byte decides between the two answers that carry the record (R130, READ.12). -/
theorem readCompletion_eq (b0 : Byte) (tf : TimeFields) : readCompletion b0 tf =
    ⟨if b0.getLsbD 7 then some .clockHalted else none, some tf.toPayload⟩ := by
  rw [readCompletion, haltFlag_eq]
  split <;> rfl

/-- Settles O21: the probe, the request and the seven reads one after another, then the completion. -/
theorem readDecodesTheBurst : Obligations.ReadDecodesTheBurst := by
  rintro s n b0 b1 b2 b3 b4 b5 b6 e d tf ha hconverse hcount rfl
  rw [exec_read_burst ha hconverse hcount, readCompletion_eq]
  rfl

end Sys2Proof.Machine
end

section
/-! PROOFS. WRITE (R131, R133, R135), as far as the step list that it shares with SET goes for any latched record. -/
namespace Sys2Proof.Machine

/-- The bytes that the first transaction queues behind the pointer: the stop byte and `E1` to `E6` (R131). -/
def stopBytes (b : RawBytes) : List Byte := [0x80, b.b1, b.b2, b.b3, b.b4, b.b5, b.b6]

theorem stopCalls_eq (b : RawBytes) : stopCalls b = queueCalls 0x00 (stopBytes b) ++ [.busClose] := rfl

theorem restartCalls_eq (b : RawBytes) : restartCalls b = queueCalls 0x00 [b.b0] ++ [.busClose] := rfl

/-- WRITE.1 to WRITE.9. -/
theorem timeWriteSteps_stop (s : State) :
    CallsOnly timeWriteSteps s 1 (queueCalls 0x00 (stopBytes s.timeBytes)) :=
  ⟨rfl, rfl, rfl, rfl, rfl, rfl, rfl, rfl, rfl, trivial⟩

/-- WRITE.11 to WRITE.13. -/
theorem timeWriteSteps_restart (s : State) :
    CallsOnly timeWriteSteps s 11 (queueCalls 0x00 [s.timeBytes.b0]) :=
  ⟨rfl, rfl, rfl, trivial⟩

section timeWrite
variable {op : Op} {n : Nat} {calls : List BusCall} {st : Byte} {rets : List Byte} {e : Env} {d : Nat} {p : Bool}
  {c : Completion} {s : State}

/-- WRITE.1 to WRITE.10: the first transaction up to what its close decides. -/
theorem State.Converses.run_stop (h : s.Converses op 1 (stopCalls s.timeBytes ++ calls) (st :: rets) e d)
    (hrest : ∀ u, s.SameBlock u → u.Converses op 10 calls rets e d →
      State.run timeWriteSteps n (afterCheckedClose (some 0) st u) =
        (afterCheckedClose (some 0) st u).completed p calls rets e d c) :
    State.run timeWriteSteps (n + 10) s = s.completed p (stopCalls s.timeBytes ++ calls) (st :: rets) e d c := by
  rw [stopCalls_eq, List.append_assoc] at h ⊢
  refine h.run_queue (fun u hu => hu.timeBytes ▸ timeWriteSteps_stop u) fun u hu hclose => ?_
  exact hclose.run_result (afterCheckedClose_attached (i := .write default) (some 0) rfl
    (by decide : 10 < 14)) rfl rfl fun v hv => hrest v (hu.trans hv)

/-- WRITE.10: a first close that fails is the last primitive (R161, R169). -/
theorem State.Converses.run_failedStop {b : RawBytes} (hb : s.timeBytes = b)
    (h : s.Converses op 1 (stopCalls b) [st] e d) (hst : st ≠ 0) :
    State.run timeWriteSteps (n + 11) s =
      s.completed false (stopCalls b) [st] e d (answerFail .busUnavailable (some 0)) := by
  subst hb
  refine State.Converses.run_stop (calls := []) h fun u _ hfailed => ?_
  have hraise : afterCheckedClose (some 0) st u =
      ((u.setSt st).setPresence false).raise .busUnavailable (some 0) := if_neg hst
  rw [hraise]
  exact ((hfailed.setSt st).setPresence false).run_conclude _

/-- What the close of the second transaction decides (WRITE.14). -/
theorem afterLastClose_eq (st : Byte) (s : State) : afterLastClose st s =
    ((s.setSt st).setPresence (decide (st = 0))).conclude
      (if st = 0 then answerOk 0 else answerFail .busUnavailable (some 0)) := by
  unfold afterLastClose
  split
  · rw [decide_eq_true ‹_›]
  · rw [decide_eq_false ‹_›]
    rfl

/-- WRITE.11 to WRITE.14: the second transaction, after which the command completes either way. -/
theorem State.Converses.run_restart (h : s.Converses op 11 (restartCalls s.timeBytes) [st] e d) :
    State.run timeWriteSteps (n + 5) s = s.completed (decide (st = 0)) (restartCalls s.timeBytes) [st] e d
      (if st = 0 then answerOk 0 else answerFail .busUnavailable (some 0)) := by
  rw [restartCalls_eq] at h ⊢
  refine h.run_queue (fun u hu => hu.timeBytes ▸ timeWriteSteps_restart u) fun u hu hclose => ?_
  refine hclose.run_result (afterLastClose_attached (i := .write default) rfl) rfl rfl
    fun v _ hlast => ?_
  rw [afterLastClose_eq]
  exact ((hlast.setSt st).setPresence _).run_conclude _

/-- WRITE.1 to WRITE.14: both transactions (R131, R135). -/
theorem State.Converses.run_stopAndRestart {b : RawBytes} (hb : s.timeBytes = b)
    (h : s.Converses op 1 (stopCalls b ++ restartCalls b) [0, st] e d) :
    State.run timeWriteSteps (n + 15) s =
      s.completed (decide (st = 0)) (stopCalls b ++ restartCalls b) [0, st] e d
        (if st = 0 then answerOk 0 else answerFail .busUnavailable (some 0)) := by
  subst hb
  refine h.run_stop fun u hu hgood => ?_
  rw [← hu.timeBytes] at hgood ⊢
  exact ((hgood.setSt 0).setPresence true).advance.run_restart

end timeWrite

/-- The record is latched at acceptance (R131, R133). -/
theorem State.started_timeBytes (s : State) (tf : TimeFields) :
    (s.started (.write tf)).timeBytes = encodeTime s.years tf := rfl

/-- Settles O22: the first close that fails is the last primitive. -/
theorem writeStopsAtAFailedFirstClose : Obligations.WriteStopsAtAFailedFirstClose :=
  fun s tf _ _ _ ha hconverse hst =>
    exec_of_run ha hconverse fun h => h.run_failedStop (s.started_timeBytes tf) hst

/-- WRITE's answer after a good first close (R131). -/
theorem exec_write_stopAndRestart {s : State} {tf : TimeFields} {st : Byte} {e : Env} {d : Nat}
    {calls : List BusCall} (ha : s.agenda = [])
    (hcalls : calls = stopCalls (encodeTime s.years tf) ++ restartCalls (encodeTime s.years tf))
    (hconverse : s.env.converse s.draws calls = some ([0, st], e, d)) :
    exec (.write tf) s = .next (s.completed (decide (st = 0)) calls [0, st] e d
      (if st = 0 then answerOk 0 else answerFail .busUnavailable (some 0))) := by
  subst hcalls
  exact exec_of_run ha hconverse fun h => h.run_stopAndRestart (s.started_timeBytes tf)

/-- Settles O23: the first transaction, the second, and the completion that its close decides. -/
theorem writeIssuesBothTransactions : Obligations.WriteIssuesBothTransactions :=
  fun _ _ _ _ _ _ => exec_write_stopAndRestart

end Sys2Proof.Machine
end

section
/-! PROOFS. WRITE, READ and ISRUNNING under ENV-H (R77, R78): what WRITE leaves in the chip's registers, and what the
two others answer after it (R134, R141). -/
namespace Sys2Proof.TimeFields

/-- The upper ends of the declared ranges (R21). -/
theorem inDeclaredRanges_bounds {tf : TimeFields} (h : tf.inDeclaredRanges = true) :
    tf.second.toNat ≤ 59 ∧ tf.minute.toNat ≤ 59 ∧ tf.hour.toNat ≤ 23 ∧ tf.wday.toNat ≤ 7 ∧ tf.day.toNat ≤ 31 ∧
      tf.month.toNat ≤ 12 := by
  simp only [inDeclaredRanges, Bool.and_eq_true, decide_eq_true_eq] at h
  omega

end Sys2Proof.TimeFields

namespace Sys2Proof.Machine

/-! ## The conversations under ENV-H -/

/-- ENV-H after a write transaction: its bytes are in the registers from `pointer` on (R77). -/
def Env.written (e : Env) (pointer : Byte) (bytes : List Byte) : Env :=
  Env.closeOk { e with queue := pointer :: bytes }

/-- ENV-H after the two transactions of WRITE with the record `b` (R131). -/
def Env.recorded (e : Env) (b : RawBytes) : Env := (e.written 0x00 (stopBytes b)).written 0x00 [b.b0]

section healthy
variable {e : Env} (h : e.kind = .healthy) (d : Nat)
include h

/-- A write transaction with its close reports 0 and stores its bytes. -/
theorem Env.converse_written (pointer : Byte) (bytes : List Byte) (calls : List BusCall) :
    e.converse d (queueCalls pointer bytes ++ .busClose :: calls) =
      ((e.written pointer bytes).converse d calls).map fun x => (0 :: x.1, x.2) := by
  have hclose := Env.answer_busClose_healthy (e := { e with queue := pointer :: bytes }) h d
  exact (Env.converse_transaction h d 0x68 pointer bytes _).trans (Env.converse_cons_result hclose calls rfl)

/-- Both closes of WRITE report 0. -/
theorem Env.converse_recorded (b : RawBytes) :
    e.converse d (stopCalls b ++ restartCalls b) = some ([0, 0], e.recorded b, d) := by
  rw [stopCalls_eq, restartCalls_eq, List.append_assoc, List.singleton_append, Env.converse_written h,
    Env.converse_written (e := e.written 0x00 (stopBytes b)) h]
  rfl

/-- A pointer write and a burst: both are answered well, and the reads give the registers from `pointer` on. -/
theorem Env.converse_registers (pointer count : Byte) :
    e.converse d (queueCalls pointer [] ++
      .busClose :: .busRequest 0x68 count :: List.replicate count.toNat .busRead) =
      some (0 :: count :: e.chip.mem.burst pointer.toNat d count.toNat,
        { (e.written pointer []).fill d count.toNat count.toNat with buffer := [] }, d + count.toNat) := by
  have hrequest := Env.answer_busRequest_healthy (e := e.written pointer []) h d 0x68 count
  have hreads := Env.converse_busReads (e := (e.written pointer []).fill d count.toNat count.toNat) h
    (d + count.toNat) (e.chip.mem.burst pointer.toNat d count.toNat)
  rw [Memory.burst_length] at hreads
  rw [Env.converse_written h, Env.converse_cons_result hrequest _ rfl]
  exact congrArg (Option.map _) (congrArg (Option.map _) hreads)

end healthy

/-! ## The registers -/

/-- A shorter burst is the beginning of a longer one. -/
theorem Memory.burst_eq_take (m : Memory) (a d : Nat) {j k : Nat} (h : j ≤ k) :
    m.burst a d j = (m.burst a d k).take j := by
  induction j generalizing a d k with
  | zero => rfl
  | succ j ih =>
    obtain ⟨k, rfl⟩ : ∃ n, k = n + 1 := ⟨k - 1, by omega⟩
    rw [Memory.burst, Memory.burst, List.take_succ_cons, ih (a + 1) (d + 1) (k := k) (by omega)]

section recorded
variable {e : Env} (b : RawBytes) (h : e.chip.mem.wf = true)
include h

/-- The first transaction stores the stop byte and `E1` to `E6`, the second `E0` over the stop byte. -/
theorem Env.read_recorded (j : Nat) : (e.recorded b).chip.mem.read j =
    if j = 0 then b.b0 else (e.chip.mem.storeTime { b with b0 := 0x80 }).read j := by
  have hrestarted := Memory.read_store 0 j b.b0 (Memory.storeTime_wf { b with b0 := 0x80 } h)
  rwa [if_congr (and_iff_left (by decide)) rfl rfl] at hrestarted

theorem Env.burst_recorded (d : Nat) : (e.recorded b).chip.mem.burst 0 d 8 =
    [b.b0, b.b1, b.b2, b.b3, b.b4, b.b5, b.b6, e.chip.mem.read 7] := by
  have hstopped := Memory.burst_storeTime { b with b0 := 0x80 } d h
  rw [Memory.burst_eq_map_read _ 0 d 8 (le_refl 8)] at hstopped ⊢
  simpa [List.range_succ, Env.read_recorded b h] using congrArg List.tail hstopped

end recorded

/-! ## WRITE -/

/-- Under ENV-H WRITE succeeds (R131). -/
theorem exec_write_healthy {s : State} (tf : TimeFields) (ha : s.agenda = []) (hkind : s.env.kind = .healthy) :
    exec (.write tf) s = .next (s.completed true
      (stopCalls (encodeTime s.years tf) ++ restartCalls (encodeTime s.years tf)) [0, 0]
      (s.env.recorded (encodeTime s.years tf)) s.draws (answerOk 0)) :=
  exec_write_stopAndRestart ha rfl (Env.converse_recorded hkind _ _)

/-- Settles O46: both transactions succeed, and the second stores `E0` over the stop byte of the first. -/
theorem writeStoresTheRecord : Obligations.WriteStoresTheRecord :=
  fun _ tf ha hkind hmem => ⟨_, exec_write_healthy tf ha hkind, rfl, Env.burst_recorded _ hmem 0⟩

/-- The next step runs a well-formed command whose word is placed. -/
theorem step_withCommand_encode (s : State) {i : Instr} (hwf : i.wf = true) :
    step (s.withCommand (encode i)) = exec i (s.placed (encode i)) :=
  step_withCommand (decodeEncodeIsIdentity i hwf)

/-- A step that runs WRITE under ENV-H, and what the next command finds after it. -/
theorem step_write_healthy {s : State} (tf : TimeFields) (ha : s.agenda = []) (hkind : s.env.kind = .healthy) :
    ∃ t, step (s.withCommand (encode (.write tf))) = .next t ∧ t.agenda = [] ∧
      t.env = s.env.recorded (encodeTime s.years tf) ∧ t.years = s.years :=
  ⟨_, (step_withCommand_encode s rfl).trans (exec_write_healthy (s := s.placed _) tf ha hkind), ha, rfl, rfl⟩

/-- Requester 0 gets the answer to the command that was placed. -/
theorem State.answer0_placed (s : State) (i : Instr) (p : Bool) (calls : List BusCall) (rets : List Byte)
    (e : Env) (d : Nat) (c : Completion) : ((s.placed (encode i)).completed p calls rets e d c).answer0 =
      some (responseWord i.opcode c.err (c.payload d)) := by
  rw [State.answer0_completed (s.placed_grant _) (s.placed_port _), State.placed_cmd, (encode_fields i).1]

/-! ## READ after WRITE (R134) -/

/-- Below 80 the seconds byte has bit 7 clear, and the mask of R132 takes nothing off. -/
theorem dec2bcd_and_secMask : ∀ v : Byte, v.toNat ≤ 79 → dec2bcd v &&& Config.secMask = dec2bcd v := by decide

/-- Below 40 the hours byte has bit 6 clear, and the mask of R132 takes nothing off. -/
theorem dec2bcd_and_hourMask : ∀ v : Byte, v.toNat ≤ 39 → dec2bcd v &&& Config.hourMask = dec2bcd v := by decide

/-- In seconds up to 99 the halt flag is set from 80 on (R184). -/
theorem haltFlag_dec2bcd : ∀ v : Byte, v.toNat ≤ 99 → haltFlag (dec2bcd v) = decide (80 ≤ v.toNat) := by decide

/-- R134: in the declared ranges decoding gives the record back. -/
theorem decodeTime_encodeTime {years : YearMap} {tf : TimeFields} (hranges : tf.inDeclaredRanges = true)
    (hyear : years.ofChip (years.toChip tf.year) = tf.year) (hfits : (years.toChip tf.year).toNat ≤ 99) :
    decodeTime years (encodeTime years tf) = tf := by
  obtain ⟨hsecond, hminute, hhour, hwday, hday, hmonth⟩ := TimeFields.inDeclaredRanges_bounds hranges
  have hback {v : Byte} (h : v.toNat ≤ 99) : bcd2dec (dec2bcd v) = v := (bcd2dec_dec2bcd_iff v).mpr (by omega)
  unfold decodeTime encodeTime
  rw [dec2bcd_and_secMask _ (by omega), dec2bcd_and_hourMask _ (by omega), hback (hsecond.trans (by decide)),
    hback (hminute.trans (by decide)), hback (hhour.trans (by decide)), hback (hwday.trans (by decide)),
    hback (hday.trans (by decide)), hback (hmonth.trans (by decide)), hback hfits, hyear]

/-- READ under ENV-H answers the record that the seven time registers hold. -/
theorem exec_read_healthy {s : State} {b : RawBytes} (ha : s.agenda = []) (hkind : s.env.kind = .healthy)
    (hregs : s.env.chip.mem.burst 0 s.draws 7 = [b.b0, b.b1, b.b2, b.b3, b.b4, b.b5, b.b6]) : ∃ rets e d,
    exec .read s = .next (s.completed true timeReadCalls rets e d
      (readCompletion b.b0 (decodeTime s.years b))) := by
  have hconverse := Env.converse_registers hkind s.draws 0x00 7
  rw [show s.env.chip.mem.burst (0x00 : Byte).toNat s.draws (7 : Byte).toNat = _ from hregs] at hconverse
  exact ⟨_, _, _, exec_read_burst ha hconverse (le_refl 7)⟩

/-- Settles O52: READ finds in the registers the bytes that WRITE stored, which decode to the record. -/
theorem writeThenReadReturnsTheRecord : Obligations.WriteThenReadReturnsTheRecord := by
  intro s tf ha hkind hmem hranges hyear hfits
  obtain ⟨t, hwrite, hquiet, henv, hyears⟩ := step_write_healthy tf ha hkind
  obtain ⟨hsecond, -⟩ := TimeFields.inDeclaredRanges_bounds hranges
  have hrunning : haltFlag (encodeTime s.years tf).b0 = false :=
    (haltFlag_dec2bcd tf.second (by omega)).trans (decide_eq_false (by omega))
  have hregs (d : Nat) : t.env.chip.mem.burst 0 d 7 = _ :=
    (Memory.burst_eq_take _ 0 d (by decide)).trans
      (congrArg (List.take 7) (henv ▸ Env.burst_recorded (encodeTime s.years tf) hmem d))
  obtain ⟨rets, e, d, hread⟩ := exec_read_healthy (s := t.placed (encode .read)) (b := encodeTime s.years tf)
    hquiet (by rw [State.placed_env, henv]; exact hkind) (hregs _)
  refine ⟨t, _, hwrite, (step_withCommand_encode t rfl).trans hread, rfl, ?_⟩
  rw [State.answer0_placed, State.placed_years, hyears, decodeTime_encodeTime hranges hyear hfits, readCompletion,
    hrunning]
  rfl

/-! ## ISRUNNING after WRITE (R141) -/

/-- ISRUNNING's answer, whatever the close and the request report (R141). -/
theorem exec_isrunning {s : State} {st count b : Byte} {e : Env} {d : Nat} (ha : s.agenda = [])
    (hconverse : s.env.converse s.draws (registerReadCalls 0x00) = some ([st, count, b], e, d)) :
    exec .isrunning s = .next (s.completed s.presence (registerReadCalls 0x00) [st, count, b] e d
      (answerOk (boolResult (!haltFlag b)))) := by
  refine exec_of_run ha hconverse fun h => ?_
  refine State.Converses.run_queue (pointer := 0x00) (bytes := []) (n := 13) h (fun _ _ => ⟨rfl, rfl, trivial⟩)
    fun u hu hclose => ?_
  refine hclose.run_result (afterIgnoredClose_attached (i := .isrunning) (by decide : 3 < 6)) rfl rfl
    fun v hv hrequest => ?_
  refine (hrequest.setSt st).advance.run_result (afterIgnoredRequest_attached (i := .isrunning) (by decide : 4 < 6))
    rfl rfl fun w hw hread => ?_
  refine (hread.setCnt count).advance.run_result (afterRegisterByte_attached (i := .isrunning) (by decide : 5 < 6))
    rfl rfl fun x hx hlast => ?_
  have hpresence : x.presence = s.presence :=
    hx.presence.trans (hw.presence.trans (hv.presence.trans hu.presence))
  rw [← hpresence]
  exact (hlast.setByte 0 b).advance.run_done rfl

/-- ISRUNNING under ENV-H answers the halt flag of register 0x00 (R60, R141). -/
theorem exec_isrunning_healthy {s : State} (ha : s.agenda = []) (hkind : s.env.kind = .healthy) : ∃ rets e d,
    exec .isrunning s = .next (s.completed s.presence (registerReadCalls 0x00) rets e d
      (answerOk (boolResult (!haltFlag (s.env.chip.mem.read 0))))) :=
  ⟨_, _, _, exec_isrunning ha (Env.converse_registers hkind s.draws 0x00 1)⟩

/-- Settles O53: ISRUNNING finds in register 0x00 the seconds byte that WRITE stored. -/
theorem writeThenIsrunning : Obligations.WriteThenIsrunning := by
  intro s tf ha hkind hmem hsecond
  obtain ⟨t, hwrite, hquiet, henv, -⟩ := step_write_healthy tf ha hkind
  obtain ⟨rets, e, d, hisrunning⟩ := exec_isrunning_healthy (s := t.placed (encode .isrunning)) hquiet
    (by rw [State.placed_env, henv]; exact hkind)
  have hregister : t.env.chip.mem.read 0 = dec2bcd tf.second :=
    henv ▸ Env.read_recorded (encodeTime s.years tf) hmem 0
  refine ⟨t, _, hwrite, (step_withCommand_encode t rfl).trans hisrunning, ?_⟩
  rw [State.answer0_placed, State.placed_env, hregister, haltFlag_dec2bcd _ hsecond]
  by_cases h79 : tf.second.toNat ≤ 79
  · rw [if_pos h79, decide_eq_false (by omega)]
    rfl
  · rw [if_neg h79, decide_eq_true (by omega)]
    rfl

end Sys2Proof.Machine
end

section
/-! PROOFS. CHIPPRESENT, ISRUNNING, SETCAL and GETCAL (R140 to R143), and what SETCAL and GETCAL make of a calibration
value under ENV-H (R144). -/
namespace Sys2Proof.Machine

/-! ## CHIPPRESENT and ISRUNNING -/

/-- Settles O15: the one event is the completion, which answers the flag. -/
theorem chippresentAnswersTheFlag : Obligations.ChippresentAnswersTheFlag :=
  fun _ ha => exec_of_firstStep_done ha rfl

/-- Settles O16: neither the status nor the count is looked at, and the halt flag is bit 7 (R60). -/
theorem isrunningAnswersTheHaltBit : Obligations.IsrunningAnswersTheHaltBit := by
  intro s st count b e d ha hconverse
  rw [exec_isrunning ha hconverse, haltFlag_eq]
  cases b.getLsbD 7 <;> rfl

/-! ## The calibration byte (R142, R143) -/

/-- `sign * (abs(value) mod 32)`, the value a calibration byte made of `value` stands for (R144). -/
def calTruncated (value : Int) : Int :=
  if 0 ≤ value then ((value.natAbs % 32 : Nat) : Int) else -((value.natAbs % 32 : Nat) : Int)

/-- The magnitude is the low five bits, the sign is bit 5. -/
theorem calDecode_eq : ∀ b : Byte, calDecode b =
    if b.getLsbD 5 then ((b.toNat % 32 : Nat) : Int) else -((b.toNat % 32 : Nat) : Int) := by decide

/-- The magnitude is taken in the integers, so that -128 has one too, and truncated to five bits. -/
theorem calEncode_eq : ∀ cal : Byte, calEncode cal =
    BitVec.ofNat 8 (cal.toInt.natAbs % 32 + (if 0 ≤ cal.toInt then 32 else 0)) := by decide

/-- The byte that SETCAL makes of its operand (R142). -/
theorem calEncode_calLatch {v : Int} (h : calOperandFits v = true) :
    calEncode (calLatch v) = BitVec.ofNat 8 (v.natAbs % 32 + (if 0 ≤ v then 32 else 0)) := by
  rw [calEncode_eq, calLatch, toInt_ofInt_of_calOperandFits h]

/-- The byte keeps the sign and the low five bits of the magnitude. -/
theorem calDecode_calEncode : ∀ cal : Byte, calDecode (calEncode cal) = calTruncated cal.toInt := by decide

/-! ## SETCAL and GETCAL, whoever answers -/

theorem State.Converses.setCal {op : Op} {k : Nat} {calls : List BusCall} {rets : List Byte} {e : Env} {d : Nat}
    {s : State} (h : s.Converses op k calls rets e d) (v : Byte) :
    (s.setCal v).Converses op k calls rets e d :=
  ⟨h.quiet, h.seq, h.due, h.converse⟩

/-- What the close of SETCAL decides (SETCAL.4). -/
theorem afterCalClose_eq (st : Byte) (s : State) : afterCalClose st s =
    (s.setSt st).conclude (if st = 0 then answerOk 0 else answerFail .busUnavailable (some 0)) := by
  unfold afterCalClose
  split <;> rfl

/-- SETCAL's answer: the byte of the operand is queued, and the close reports (R142). -/
theorem exec_setcal {s : State} {v : Int} {st : Byte} {e : Env} {d : Nat} (ha : s.agenda = [])
    (hconverse : s.env.converse s.draws (calWriteCalls (calEncode (calLatch v))) = some ([st], e, d)) :
    exec (.setcal v) s = .next (s.completed s.presence (calWriteCalls (calEncode (calLatch v))) [st] e d
      (if st = 0 then answerOk 0 else answerFail .busUnavailable (some 0))) := by
  refine exec_of_run ha hconverse fun h => ?_
  have hsteps (u : State) (hu : (s.started (.setcal v)).SameBlock u) :
      CallsOnly setcalSteps u 1 (queueCalls 0x07 [calEncode (calLatch v)]) := by
    have hcal : u.latch.cal = calLatch v := by rw [hu.latch]; rfl
    exact ⟨rfl, rfl, hcal ▸ rfl, trivial⟩
  refine State.Converses.run_queue (n := 12) h hsteps fun u hu hclose => ?_
  refine hclose.run_result (afterCalClose_attached (i := .setcal v)) rfl rfl fun w hw hlast => ?_
  have hpresence : w.presence = s.presence := hw.presence.trans hu.presence
  rw [afterCalClose_eq, ← hpresence]
  exact (hlast.setSt st).run_conclude _

/-- Settles O17: the operand's byte reaches the bus, and the close alone decides the answer. -/
theorem setcalWritesTheByte : Obligations.SetcalWritesTheByte := by
  intro s v calb st e d ha hlow hhigh hcalb hconverse
  rw [← calEncode_calLatch (by simp [calOperandFits, hlow, hhigh])] at hcalb
  subst hcalb
  exact exec_setcal ha hconverse

/-- GETCAL's answer, whatever the close and the request report (R143). -/
theorem exec_getcal {s : State} {st count b : Byte} {e : Env} {d : Nat} (ha : s.agenda = [])
    (hconverse : s.env.converse s.draws (registerReadCalls 0x07) = some ([st, count, b], e, d)) :
    exec .getcal s = .next (s.completed s.presence (registerReadCalls 0x07) [st, count, b] e d
      (answerOk (byteResult (calLatch (calDecode b))))) := by
  refine exec_of_run ha hconverse fun h => ?_
  refine State.Converses.run_queue (pointer := 0x07) (bytes := []) (n := 13) h (fun _ _ => ⟨rfl, rfl, trivial⟩)
    fun u hu hclose => ?_
  refine hclose.run_result (afterIgnoredClose_attached (i := .getcal) (by decide : 3 < 6)) rfl rfl
    fun v hv hrequest => ?_
  refine (hrequest.setSt st).advance.run_result (afterIgnoredRequest_attached (i := .getcal) (by decide : 4 < 6))
    rfl rfl fun w hw hread => ?_
  refine (hread.setCnt count).advance.run_result (afterCalByte_attached (by decide : 5 < 6)) rfl rfl
    fun x hx hlast => ?_
  have hpresence : x.presence = s.presence :=
    hx.presence.trans (hw.presence.trans (hv.presence.trans hu.presence))
  rw [← hpresence]
  exact ((hlast.setByte 0 b).setCal _).advance.run_done rfl

/-- Settles O18: neither the status nor the count is looked at, and the byte stands for its low five bits, negated
when bit 5 is clear. -/
theorem getcalReadsTheByte : Obligations.GetcalReadsTheByte := by
  intro s st count b e d ha hconverse
  rw [exec_getcal ha hconverse, calDecode_eq]
  rfl

/-! ## GETCAL after SETCAL under ENV-H (R144) -/

/-- A step that runs SETCAL under ENV-H, and what the next command finds after it. -/
theorem step_setcal_healthy {s : State} {v : Int} (ha : s.agenda = []) (hkind : s.env.kind = .healthy)
    (hv : calOperandFits v = true) : ∃ t, step (s.withCommand (encode (.setcal v))) = .next t ∧
      t.agenda = [] ∧ t.env = s.env.written 0x07 [calEncode (calLatch v)] :=
  ⟨_, (step_withCommand_encode s (i := .setcal v) hv).trans (exec_setcal (s := s.placed _) ha
    (Env.converse_written hkind _ 0x07 [calEncode (calLatch v)] [])), ha, rfl⟩

/-- GETCAL under ENV-H answers what register 0x07 stands for (R143). -/
theorem exec_getcal_healthy {s : State} (ha : s.agenda = []) (hkind : s.env.kind = .healthy) : ∃ rets e d,
    exec .getcal s = .next (s.completed s.presence (registerReadCalls 0x07) rets e d
      (answerOk (byteResult (calLatch (calDecode (s.env.chip.mem.read 7)))))) :=
  ⟨_, _, _, exec_getcal ha (Env.converse_registers hkind s.draws 0x07 1)⟩

/-- Settles O54: GETCAL finds in register 0x07 the byte that SETCAL stored, which stands for the truncated operand. -/
theorem calibrationRoundTrip : Obligations.CalibrationRoundTrip := by
  intro s v ha hkind hmem hlow hhigh
  have hv : calOperandFits v = true := by simp [calOperandFits, hlow, hhigh]
  obtain ⟨t, hsetcal, hquiet, henv⟩ := step_setcal_healthy ha hkind hv
  have hregister : t.env.chip.mem.read 7 = calEncode (calLatch v) :=
    henv ▸ Memory.read_store 7 7 (calEncode (calLatch v)) hmem
  obtain ⟨rets, e, d, hgetcal⟩ := exec_getcal_healthy (s := t.placed (encode .getcal)) hquiet
    (by rw [State.placed_env, henv]; exact hkind)
  refine ⟨t, _, hsetcal, (step_withCommand_encode t rfl).trans hgetcal, fun h0 => ?_, ?_⟩
  · rw [hregister, h0]
    decide
  · rw [State.answer0_placed, State.placed_env, hregister, calDecode_calEncode, calLatch, calLatch,
      toInt_ofInt_of_calOperandFits hv]
    rfl

end Sys2Proof.Machine
end

section
/-! PROOFS. GET and SET (R150, R151): READ's and WRITE's steps in line, with a failure payload and a completion of GET's
own, and with the record that BREAK_TIME gives SET. -/
namespace Sys2Proof.Machine

/-! ## GET (R150) -/

/-- GET.3: a probe whose close reports a failure is the last primitive (R161). -/
theorem exec_get_failedProbe {s : State} {st : Byte} {e : Env} {d : Nat} (ha : s.agenda = [])
    (hprobe : s.env.converse s.draws probeCalls = some ([st], e, d)) (hst : st ≠ 0) :
    exec .get s = .next (s.completed false probeCalls [st] e d (answerFail .busUnavailable (some 0))) :=
  exec_of_run ha hprobe fun h =>
    run_timeRead_failedProbe (some 0) getCompletion h.quiet h.seq h.due h.converse hst

/-- GET.4: a request that falls short is the last primitive (R162). -/
theorem exec_get_shortRead {s : State} {count : Byte} {e : Env} {d : Nat} (ha : s.agenda = [])
    (hconverse : s.env.converse s.draws (probeCalls ++ [.busRequest 0x68 7]) = some ([0, count], e, d))
    (hcount : count.toNat < 7) :
    exec .get s = .next (s.completed true (probeCalls ++ [.busRequest 0x68 7]) [0, count] e d
      (answerFail .shortRead (some 0))) :=
  exec_of_run ha hconverse fun h => h.run_shortRead hcount

/-- Settles O24: the two exits of READ's step list before the burst, with GET's payload. -/
theorem getFailsWithZero : Obligations.GetFailsWithZero :=
  ⟨fun _ _ _ _ => exec_get_failedProbe, fun _ _ _ _ => exec_get_shortRead⟩

/-- GET's answer to a burst. -/
theorem exec_get_burst {s : State} {count b0 b1 b2 b3 b4 b5 b6 : Byte} {e : Env} {d : Nat} (ha : s.agenda = [])
    (hconverse : s.env.converse s.draws timeReadCalls = some ([0, count, b0, b1, b2, b3, b4, b5, b6], e, d))
    (hcount : 7 ≤ count.toNat) :
    exec .get s = .next (s.completed true timeReadCalls [0, count, b0, b1, b2, b3, b4, b5, b6] e d
      (getCompletion b0 (decodeTime s.years ⟨b0, b1, b2, b3, b4, b5, b6⟩))) :=
  exec_of_run ha hconverse fun h => h.run_burst hcount

/-- Bit 7 of the raw seconds byte decides whether the record is converted (GET.12). -/
theorem getCompletion_eq (b0 : Byte) (tf : TimeFields) : getCompletion b0 tf =
    if b0.getLsbD 7 then answerFail .clockHalted (some 0)
      else answerOk ((Config.makeTime tf).setWidth 56) := by
  rw [getCompletion, haltFlag_eq, epochResult]

/-- Settles O25: READ's burst, whose record GET's completion converts. -/
theorem getConvertsTheRecord : Obligations.GetConvertsTheRecord := by
  rintro s n b0 b1 b2 b3 b4 b5 b6 e d tf ha hconverse hcount rfl
  rw [exec_get_burst ha hconverse hcount, getCompletion_eq]
  rfl

/-! ## SET (R151) -/

/-- The record that BREAK_TIME gives is latched at acceptance. -/
theorem State.started_set_timeBytes (s : State) (t : Epoch) :
    (s.started (.set t)).timeBytes = encodeTime s.years (Config.breakTime t) := rfl

/-- Settles O26: the first exit of WRITE's step list, for the latched record. -/
theorem setStopsAtAFailedFirstClose : Obligations.SetStopsAtAFailedFirstClose :=
  fun s t _ _ _ ha hconverse hst =>
    exec_of_run ha hconverse fun h => h.run_failedStop (s.started_set_timeBytes t) hst

/-- Settles O27: both transactions of WRITE's step list, for the latched record. -/
theorem setIssuesBothTransactions : Obligations.SetIssuesBothTransactions := by
  rintro s t st e d calls ha rfl hconverse
  exact exec_of_run ha hconverse fun h => h.run_stopAndRestart (s.started_set_timeBytes t)

end Sys2Proof.Machine
end

section
/-! PROOFS. The reset event (R37, R180 to R182) and the fields out of their declared ranges (R184). -/
namespace Sys2Proof.Machine

/-! ## The reset event -/

/-- In IDLE the collaborator stays as it is (R37, R182). -/
@[simp] theorem Env.afterReset_idle (e : Env) : e.afterReset .idle = e := rfl

/-- With a command in flight, every later answer is a free draw (R181). -/
theorem Env.afterReset_inFlight (e : Env) {q : Seq} (h : q ≠ .idle) :
    e.afterReset q = { e with kind := .unspecified [] } := by
  cases q with
  | idle => exact absurd rfl h
  | busy => rfl

theorem State.rst_noResponse (s : State) : ∀ p ∈ s.rst.ports, p.rsp = none := by simp

/-- Settles O40: the reset event writes these fields, and the environment only with a command in flight. -/
theorem resetEventValues : Obligations.ResetEventValues :=
  fun s => ⟨rfl, rfl, rfl, rfl, s.rst_noResponse, rfl, fun hidle => by simp [hidle]⟩

/-! ## A reset in mid-command (R181) -/

/-- A reset before the next event ends the run, whatever fuel is left. -/
theorem State.run_reset {s : State} {rest : List (List Move)} (ha : s.agenda = [.rst] :: rest)
    (steps : Nat → State → Progress) (n : Nat) :
    State.run steps (n + 1) s = State.rst { s with agenda := rest } := by
  have hreset : s.otherAgents = State.rst { s with agenda := rest } := by
    simp [State.otherAgents, ha, State.otherMove]
  simp [State.run, hreset]

section interrupted
variable {i : Instr} {s : State} {n : Nat} (hflight : (State.run (stepsOf i) n (s.started i)).seq ≠ .idle)
  (hbus : (State.run (stepsOf i) n (s.started i)).bus = none)
include hflight hbus

/-- A command that still goes on has had fewer events than an operation has at most (R32). -/
theorem run_inFlight_lt_maxEvents : n < Config.maxEvents := by
  by_contra hn
  have hfuel : 15 ≤ n := not_lt.mp hn
  rcases run_end i n (s.started i) 1 (s.started_seq i) (le_refl 1) (one_le_lastStep i.op) (fun _ => hfuel)
    (by omega) with hidle | ⟨v, c, -, hwaits, -⟩
  · exact hflight hidle
  · simp [hwaits] at hbus

/-- With a reset as the move after `n` events of a command, its execution is those events and the reset. -/
theorem exec_reset {rest : List (List Move)} (ha : s.agenda.drop n = [.rst] :: rest) :
    exec i s = .next (State.rst { State.run (stepsOf i) n (s.started i) with agenda := rest }) := by
  obtain ⟨m, hm⟩ := Nat.exists_eq_add_of_lt (run_inFlight_lt_maxEvents hflight hbus)
  obtain ⟨hrun, hagenda⟩ := run_continue i n (m + 1) (s.started i) 1 (s.started_seq i) (le_refl 1)
    (one_le_lastStep i.op) hflight hbus
  rw [State.started_agenda, ha] at hagenda
  rw [exec_eq_started, hm, Nat.add_assoc, hrun, State.run_reset hagenda]

end interrupted

/-- Settles O41: the execution is the events before the reset, and then the reset event with the command in
flight. -/
theorem resetAbandonsTheCommand : Obligations.ResetAbandonsTheCommand := by
  rintro i s u before rest - ha rfl hflight hbus
  exact ⟨_, exec_reset hflight hbus (by rw [ha, List.drop_left]), rfl, rfl, rfl, rfl, rfl, rfl, rfl, rfl,
    Env.afterReset_inFlight _ hflight⟩

/-! ## Fields out of their declared ranges (R184) -/

/-- Two decimal digits set bit 7 when the tens digit is at least 8 (R120). -/
theorem dec2bcd_bit7 {v : Byte} (h : v.toNat ≤ 99) : (dec2bcd v).getLsbD 7 = decide (80 ≤ v.toNat) := by
  rw [← haltFlag_eq, haltFlag_dec2bcd v h]

/-- Below 80, they set bit 6 when the tens digit is at least 4 (R120). -/
theorem dec2bcd_bit6 : ∀ v : Byte, v.toNat ≤ 79 → (dec2bcd v).getLsbD 6 = decide (40 ≤ v.toNat) := by decide

/-- Settles O51: the mode bits of the two bytes are comparisons of the field with 80 and with 40. -/
theorem outOfRangeFieldsChangeTheMode : Obligations.OutOfRangeFieldsChangeTheMode := by
  intro years tf
  refine ⟨fun hlow hhigh => ?second, fun hlow hhigh => ?hour, fun hranges => ?declared⟩
  case second => exact (dec2bcd_bit7 hhigh).trans (decide_eq_true hlow)
  case hour => exact (dec2bcd_bit6 _ hhigh).trans (decide_eq_true hlow)
  case declared =>
    obtain ⟨hsecond, -, hhour, -⟩ := tf.inDeclaredRanges_bounds hranges
    exact ⟨(dec2bcd_bit7 (by omega)).trans (decide_eq_false (by omega)),
      (dec2bcd_bit6 _ (by omega)).trans (decide_eq_false (by omega)),
      (dec2bcd_bit7 (by omega)).trans (decide_eq_false (by omega))⟩

end Sys2Proof.Machine
end
